-- ==== Sys2Proof/Word.lean ====
section
/-! DEFINITION. The word type of the machine (spec/10_state.md, spec/00_scope.md R9): 16 bits, unsigned
storage, arithmetic modulo 2^16, which is `BitVec 16`'s own arithmetic. -/

namespace Sys2Proof

/-- The architecture's only data size: a 16-bit word (R6 Table 00-1, R9). -/
abbrev Word := BitVec 16

/-- A byte of the host's character streams and of an image file (R14 Table 00-3, R182). -/
abbrev Byte := BitVec 8

/-- A 3-bit register field: an index 0..7 into R0..R7 (R21, R61, R63). -/
abbrev RegIx := BitVec 3

end Sys2Proof
end

