-- ==== Sys2Proof/Machine/Flags.lean ====
section
/-! DEFINITION. The condition flags (spec/00_scope.md R10, spec/10_state.md R26): their encoding in COND, the flag a word
sets, and BR's test. -/

namespace Sys2Proof.Machine

/-- COND's value for Negative (R26; the number is D5's: PRESUMED, log 5). -/
def flagN : Word := 0x0004#16

/-- COND's value for Zero (R26, D5, log 5). -/
def flagZ : Word := 0x0002#16

/-- COND's value for Positive (R26, D5, log 5). -/
def flagP : Word := 0x0001#16

/-- The flag `setcc(v)` puts in COND (R10): Z if `v = 0`, else N if `v[15] = 1`, else P. -/
def flagOf (v : Word) : Word :=
  if v = 0#16 then flagZ else if v.msb then flagN else flagP

/-- COND holds exactly one of N, Z and P (R26). -/
def oneHot (cond : Word) : Bool := cond == flagN || cond == flagZ || cond == flagP

/-- BR's test (R100): some condition bit that is 1 in the instruction matches COND (log 27). -/
def branchTaken (n z p : Bool) (cond : Word) : Bool :=
  (n && cond == flagN) || (z && cond == flagZ) || (p && cond == flagP)

end Sys2Proof.Machine
end

