-- ==== Sys2Proof/Config.lean ====
section
/-! DEFINITION. The parameters the source leaves open (spec/00_scope.md R7 Table 00-2) and the free values.
A value with no body is free: nothing in Lean can evaluate it, so a theorem holds whatever it is.
The default device addresses stand in Machine/Params.lean. -/

namespace Sys2Proof.Config

/-- The parameters of Table 00-2 that a machine is built with; fixed for a run (no step changes them).
They stand in State as plain data, so a statement about every state quantifies over them. -/
structure Params where
  /-- `KBSR_ADDR`, the address of the keyboard status register (R42). -/
  kbsrAddr : Word
  /-- `KBDR_ADDR`, the address of the keyboard data register (R42). -/
  kbdrAddr : Word
  /-- `HALT_NOTICE`, the byte string HALT writes (R136). -/
  haltNotice : List Byte
  /-- `IN_PROMPT`, the byte string IN writes before it reads (R134). -/
  inPrompt : List Byte
  /-- `HOST_EOF` for the keyboard poll: what a poll returns once the host's input has ended, nothing or a key code
  (R57, D10; log 11). -/
  hostEofPoll : Option Word
  deriving DecidableEq, Repr

/-- The halt notice of the reset machine: OPEN in the spec (D15), so a free value (log 16). -/
opaque haltNotice : List Byte

/-- The IN prompt of the reset machine: OPEN in the spec (D15), so a free value (log 16). -/
opaque inPrompt : List Byte

/-- `HOST_EOF` for GETC and IN: what the n-th character read after the end of host input delivers as a
character code. OPEN in the spec (D10), so a free value, any word (log 11). -/
opaque hostEofChar : Nat → Word

/-- `HOST_EOF` for the keyboard poll of the reset machine: OPEN in the spec (R57, D10), so a free value (log 11). -/
opaque hostEofPoll : Option Word

end Sys2Proof.Config
end

