-- ==== Sys2Proof/Machine/Params.lean ====
section
/-! DEFINITION. The numbers of spec/00_scope.md Table 00-1 and Table 00-2: the start address, the default device
addresses and the six trap vectors. They stand here, one definition each, so that each can be mended alone. -/

namespace Sys2Proof.Machine

/-- The fixed load and start address (R6, R184). -/
def startAddr : Word := 0x3000#16

/-- The default of `KBSR_ADDR` (R7, R42, D4: from general knowledge, not in source; PRESUMED, log 4). -/
def defaultKbsrAddr : Word := 0xFE00#16

/-- The default of `KBDR_ADDR` (R7, R42, D4: from general knowledge, not in source; PRESUMED, log 4). -/
def defaultKbdrAddr : Word := 0xFE02#16

/-- The parameters of the reset machine: the default addresses, and the OPEN values left free (log 4, log 11, log 16). -/
def defaultParams : Config.Params where
  kbsrAddr := defaultKbsrAddr
  kbdrAddr := defaultKbdrAddr
  haltNotice := Config.haltNotice
  inPrompt := Config.inPrompt
  hostEofPoll := Config.hostEofPoll

/-- GETC's vector (Table 44-1, D3: PRESUMED, log 3). -/
def vecGetc : BitVec 8 := 0x20#8

/-- OUT's vector (Table 44-1, D3: PRESUMED, log 3). -/
def vecOut : BitVec 8 := 0x21#8

/-- PUTS's vector (Table 44-1, D3: PRESUMED, log 3). -/
def vecPuts : BitVec 8 := 0x22#8

/-- IN's vector (Table 44-1, D3: PRESUMED, log 3). -/
def vecIn : BitVec 8 := 0x23#8

/-- PUTSP's vector (Table 44-1, D3: PRESUMED, log 3). -/
def vecPutsp : BitVec 8 := 0x24#8

/-- HALT's vector, which the source gives (Table 44-1). -/
def vecHalt : BitVec 8 := 0x25#8

/-- The six supported vectors; any other faults (R130, R137). -/
def serviceVectors : List (BitVec 8) := [vecGetc, vecOut, vecPuts, vecIn, vecPutsp, vecHalt]

end Sys2Proof.Machine
end

