-- ==== Sys2Proof/Machine/State.lean ====
section
/-! DEFINITION. The state of the machine (spec/10_state.md R20), plain data, with the environment's side of Table 00-3
(host input, host output, host interruption) held beside it as plain data, and the reasons a step can stop. -/

namespace Sys2Proof.Machine

/-! ## Memory -/

/-- One listed word of memory: its address and its value. The unit of addressing is the word (R40), so a cell is a
word, not a byte: the CORE has no byte order (R46; log 1). -/
abbrev Cell := Nat × Word

/-- Memory `M`, the words that differ from 0x0000, by strictly rising address; an unlisted address reads as 0x0000,
the value the clear of R180 leaves. `Memory.wf` (Machine/Ops.lean) says that form. -/
abbrev Memory := List Cell

/-! ## Run state and fault record -/

/-- The two fault causes of Table 60-1 (R160). -/
inductive FaultReason where
  /-- Code 1: opcode 1000 or 1101; records `instr[15:12]`. -/
  | reservedOpcode (op : BitVec 4)
  /-- Code 2: a TRAP vector outside 0x20..0x25; records `instr[7:0]`. -/
  | unsupportedTrap (vect : BitVec 8)
  deriving DecidableEq, Repr

/-- The fault record of R161: the reason, the instruction word, and the PC after the fetch increment. -/
structure FaultRecord where
  reason : FaultReason
  instr : Word
  pc : Word
  deriving DecidableEq, Repr

/-- The run state (R29). Halted, Faulted and Cancelled are final. -/
inductive RunState where
  | running
  | halted
  | faulted (record : FaultRecord)
  | cancelled
  deriving DecidableEq, Repr

/-! ## The environment's side, as plain data (the model's own fields) -/

/-- What the host will do at the coming input transactions, first one first (R57, R138; log 9, log 10). Every poll and
every attempt of GETC or IN to read is one transaction. The bytes, in order, are the one host input stream. -/
inductive HostInput where
  /-- The host supplies nothing at any later transaction. -/
  | silent
  /-- The host's input has ended; what it delivers is `HOST_EOF` (log 11). -/
  | ended
  /-- The host supplies nothing at this transaction. -/
  | later (rest : HostInput)
  /-- The host supplies this byte at this transaction; it is consumed. -/
  | byte (c : Byte) (rest : HostInput)
  deriving DecidableEq, Repr

/-- How many transactions the script lists before its silence or its end. -/
def HostInput.length : HostInput → Nat
  | .silent | .ended => 0
  | .later rest | .byte _ rest => rest.length + 1

/-- What a trap service does that its step did not complete: the wait of GETC or IN (R13, R138; log 20), or for ever (R133,
R135; log 21). A service of strings that ends is never here: its step is indivisible (R13). -/
inductive Pending where
  /-- GETC waits for a character. -/
  | getc
  /-- IN waits for a character. -/
  | inp
  /-- A PUTS or PUTSP that never ends: the characters of one round through the whole memory, over and over. -/
  | endless (round : List Byte)
  deriving DecidableEq, Repr

/-! ## The state -/

/-- The state. The first five fields are R20's, all the spec gives the machine; the KBSR and KBDR registers are two
cells of `mem` (R30). `params` is the configuration (R7). The last five are the model's own: the host's coming input,
the count of characters read after its end, the bytes written so far, how many step boundaries pass before the host
interrupts (`none`: never), and the service under way. -/
structure State where
  /-- R0 to R7 (R21). -/
  regs : Vector Word 8
  /-- The program counter (R24). -/
  pc : Word
  /-- The condition-flag register, one-hot N = 4, Z = 2, P = 1 (R26). -/
  cond : Word
  /-- Memory, device cells included (R40, R30). -/
  mem : Memory
  /-- The run state (R29). -/
  run : RunState
  /-- The parameters of Table 00-2 (R7). -/
  params : Config.Params
  /-- The host's coming input (R57; log 10). -/
  hostIn : HostInput
  /-- How many characters GETC and IN have read after the end of host input (log 11). -/
  eofDraws : Nat
  /-- The host output stream, first byte first (R139, R86; log 22). -/
  out : List Byte
  /-- Step boundaries left before the host interrupts the run (R168; log 19). -/
  interruptIn : Option Nat
  /-- The trap service whose step has not completed, if there is one (log 20, log 21). -/
  pending : Option Pending
  deriving DecidableEq, Repr

/-- The machine when execution starts with nothing loaded (R180, R184; spec/10_state.md section 8): registers and memory
zero, COND = Z, PC = 0x3000, Running. Machine/Boot.lean gives the three stages and the images. The model's own fields:
a host that supplies nothing and never interrupts, and no output yet (log 10, log 19, log 22). -/
def State.reset : State where
  regs := Vector.replicate 8 0x0000#16
  pc := startAddr
  cond := 0x0002#16
  mem := []
  run := .running
  params := defaultParams
  hostIn := .silent
  eofDraws := 0
  out := []
  interruptIn := none
  pending := none

/-! ## Why a step stops -/

/-- Where there is no step at all: "While the run state is Running, one step executes this cycle; in any other run
state there is no step" (R80). Raised by `step` alone, never by an instruction. Safe: the run has ended there on the
hardware too (R85, log 18). -/
inductive Fault where
  /-- The run ended by TRAP HALT (R84). Raised by `step`. Safe. -/
  | halted
  /-- The run ended by a fatal architectural error, with its record (R161). Raised by `step`. Safe. -/
  | faulted (record : FaultRecord)
  /-- The run ended by a host interruption (R168). Raised by `step`. Safe. -/
  | cancelled
  deriving DecidableEq, Repr

/-- Why an instruction has no meaning here. -/
inductive Refusal where
  /-- The instruction has no meaning yet, by its table mnemonic. Raised by an arm of `exec`; no arm does. Safe. -/
  | notModelled (mnemonic : String)
  deriving DecidableEq, Repr

end Sys2Proof.Machine
end

