-- ==== Sys2Proof/Machine/Operands.lean ====
section
/-! DEFINITION. The operand forms (spec/30_encoding.md R63 Table 30-4, spec/43_load_store.md R117) and the bit-field and
byte helpers the meanings use. -/

namespace Sys2Proof.Machine

/-- `sext_N` (R11): the field, its sign bit replicated into every higher bit. -/
def sext {n : Nat} (v : BitVec n) : Word := v.signExtend 16

/-- `zext_N` (R11): the field, zeros in every higher bit. -/
def zext {n : Nat} (v : BitVec n) : Word := v.setWidth 16

/-- `zext_8`: a character code as a word (R138). -/
def zext8 (c : Byte) : Word := zext c

/-- Bits [7:0] of a word, the character OUT and PUTS write (R132, R133). -/
def lowByte (w : Word) : Byte := w.extractLsb' 0 8

/-- Bits [15:8] of a word, PUTSP's second character (R135). -/
def highByte (w : Word) : Byte := w.extractLsb' 8 8

/-- PC-relative address or target with PCoffset9 (R82, R117): `s.pc` is the PC after the fetch increment. -/
def pcRel9 (off : BitVec 9) (s : State) : Word := s.pc + sext off

/-- PC-relative target with PCoffset11 (R82, R102). -/
def pcRel11 (off : BitVec 11) (s : State) : Word := s.pc + sext off

/-- A general register (R12: `R[i]`). -/
def State.reg (s : State) (r : RegIx) : Word := s.regs[r.toNat]'r.isLt

/-- Base plus offset6 (R117). -/
def baseOff6 (base : RegIx) (off : BitVec 6) (s : State) : Word := s.reg base + sext off

end Sys2Proof.Machine
end

