-- ==== Sys2Proof/Machine/Ops.lean ====
section
/-! DEFINITION. The named operations every meaning is built from: memory, registers, the host's transactions
(spec/00_scope.md R12, R14), the fetch, the fault, the halt and the host interruption. There is no return from an
exception on this machine: RTI faults and nothing else returns (R166). -/

namespace Sys2Proof.Machine

/-! ## Memory as a list -/

/-- The stored word at an address; 0x0000 where none is listed (R180). -/
def Memory.get : Memory → Nat → Word
  | [], _ => 0#16
  | (a, v) :: m, k => if a = k then v else Memory.get m k

/-- Store a word at an address, keeping the canonical form: storing 0x0000 removes the entry. -/
def Memory.set : Memory → Nat → Word → Memory
  | [], k, v => if v = 0#16 then [] else [(k, v)]
  | (a, x) :: m, k, v =>
    if k < a then (if v = 0#16 then (a, x) :: m else (k, v) :: (a, x) :: m)
    else if k = a then (if v = 0#16 then m else (k, v) :: m)
    else (a, x) :: Memory.set m k v

/-- The canonical form from address `lo` on: strictly rising addresses below 65,536, no entry 0x0000. -/
def Memory.wfFrom : Nat → Memory → Bool
  | _, [] => true
  | lo, (a, v) :: m => decide (lo ≤ a) && decide (a < 65536) && v != 0#16 && Memory.wfFrom (a + 1) m

/-- The canonical form: equal memories are equal lists. -/
def Memory.wf (m : Memory) : Bool := Memory.wfFrom 0 m

/-! ## Field updates -/

/-- `PC <- v`. -/
def State.setPc (s : State) (v : Word) : State := { s with pc := v }

/-- `R[r] <- v` (R12); the flags are not touched. -/
def State.setReg (s : State) (r : RegIx) (v : Word) : State := { s with regs := s.regs.set r.toNat v r.isLt }

/-- `COND <- v`. -/
def State.setCond (s : State) (v : Word) : State := { s with cond := v }

/-- The memory, replaced. -/
def State.setMem (s : State) (m : Memory) : State := { s with mem := m }

/-- `run <- r`. -/
def State.setRun (s : State) (r : RunState) : State := { s with run := r }

/-- The host's coming input, replaced. -/
def State.setHostIn (s : State) (h : HostInput) : State := { s with hostIn := h }

/-- The count of characters read after the end of host input, replaced. -/
def State.setEofDraws (s : State) (n : Nat) : State := { s with eofDraws := n }

/-- The host output stream, replaced. -/
def State.setOut (s : State) (o : List Byte) : State := { s with out := o }

/-- The host's countdown to its interruption, replaced. -/
def State.setInterruptIn (s : State) (n : Option Nat) : State := { s with interruptIn := n }

/-- The service left to complete, replaced. -/
def State.setPending (s : State) (p : Option Pending) : State := { s with pending := p }

/-! ## Registers and flags -/

/-- `setcc(v)` (R10). -/
def setcc (v : Word) (s : State) : State := s.setCond (flagOf v)

/-- `R[r] <- v`, then `setcc(v)`: the end of every instruction that loads or computes a register (R27). -/
def writeReg (r : RegIx) (v : Word) (s : State) : State := setcc v (s.setReg r v)

/-! ## Host transactions (R14, Table 00-3) -/

/-- `HostPoll()` (R57): never waits; a byte it returns is consumed. After the end of host input it delivers
`HOST_EOF`, the open parameter (log 11). -/
def hostPoll (s : State) : Option Word × State :=
  match s.hostIn with
  | .silent => (none, s)
  | .ended => (s.params.hostEofPoll, s)
  | .later rest => (none, s.setHostIn rest)
  | .byte c rest => (some (zext8 c), s.setHostIn rest)

/-- One attempt of `HostGetChar()` (R138): `none` where the host supplies nothing now, so the CORE waits on. After
the end of host input it delivers `HOST_EOF`, free (log 11). -/
def hostGetChar (s : State) : Option Word × State :=
  match s.hostIn with
  | .silent => (none, s)
  | .ended => (some (Config.hostEofChar s.eofDraws), s.setEofDraws (s.eofDraws + 1))
  | .later rest => (none, s.setHostIn rest)
  | .byte c rest => (some (zext8 c), s.setHostIn rest)

/-- `HostPutChar(b)` for each byte of a string, in order (R139). -/
def putBytes (bs : List Byte) (s : State) : State := s.setOut (s.out ++ bs)

/-! ## Memory access through the device decoder -/

/-- The stored word `M[a]`. -/
def State.word (s : State) (a : Word) : Word := s.mem.get a.toNat

/-- `M[a] <- v` (R45); no other effect, device addresses included. -/
def memWrite (a v : Word) (s : State) : State := s.setMem (s.mem.set a.toNat v)

/-- What a poll writes in the device cells (R44): KBSR and KBDR from what the host returned. -/
def latchKey (key : Option Word) (s : State) : State :=
  match key with
  | some c => memWrite s.params.kbdrAddr c (memWrite s.params.kbsrAddr 0x8000#16 s)
  | none => memWrite s.params.kbdrAddr 0x0000#16 (memWrite s.params.kbsrAddr 0x0000#16 s)

/-- The poll a read of KBSR makes first (R44). -/
def pollKeyboard (s : State) : State :=
  let r := hostPoll s
  latchKey r.1 r.2

/-- The state a `MemRead(a, 1)` leaves: a read of KBSR polls (R44), any other read changes nothing (R43). -/
def afterRead (a : Word) (s : State) : State :=
  if a = s.params.kbsrAddr then pollKeyboard s else s

/-- `MemRead(a, 1)` (R43, R44): the word read, and the state the read leaves. -/
def memRead (a : Word) (s : State) : Word × State :=
  ((afterRead a s).word a, afterRead a s)

/-! ## The cycle -/

/-- The fetch (R80): read at the PC through `MemRead`, then increment the PC modulo 2^16. -/
def fetch (s : State) : Word × State :=
  let r := memRead s.pc s
  (r.1, r.2.setPc (r.2.pc + 1#16))

/-- `raise Fault(reason)` (R161): the run state becomes Faulted with the record {reason, instr, pc}; nothing else
changes. `s.pc` is the PC after the fetch increment. -/
def raiseFault (reason : FaultReason) (instr : Word) (s : State) : State :=
  s.setRun (.faulted { reason := reason, instr := instr, pc := s.pc })

/-- The cause code of Table 60-1 (D16: the spec's own, log 17). -/
def FaultReason.code : FaultReason → Nat
  | .reservedOpcode _ => 1
  | .unsupportedTrap _ => 2

/-! ## Host interruption (R168) -/

/-- Where the host may interrupt: between two steps, and in the wait of GETC or IN; not inside a PUTS or PUTSP that
never ends (R164, log 21). -/
def State.interruptible (s : State) : Bool :=
  match s.pending with
  | none | some .getc | some .inp => true
  | some (.endless _) => false

/-- The host interrupts here (log 19). -/
def State.interruptedNow (s : State) : Bool := s.interruptible && s.interruptIn == some 0

/-- A boundary passes without an interruption: the host's countdown goes down by one (log 19). -/
def State.tick (s : State) : State :=
  if s.interruptible then s.setInterruptIn (s.interruptIn.map (· - 1)) else s

/-- The host ends the run: Cancelled, with the interrupted wait over (R168, log 28). -/
def State.cancel (s : State) : State := (s.setRun .cancelled).setPending none

end Sys2Proof.Machine
end

