-- ==== Sys2Proof/Syntax.lean ====
section
/-! DEFINITION. The instructions (spec/30_encoding.md Table 30-2, spec/44_trap.md Table 44-1): one constructor for
every row of spec/opcode_table.json. A constructor carries every field of its format and, as `ign…`, the bits
the CORE ignores (R66): they change nothing an instruction does, but the fault record holds the whole word (R161),
so the term keeps them. -/

namespace Sys2Proof

/-- The closed variant of instructions (R81: "a closed tagged-variant (sum type) over the sixteen opcodes").
`ret` and the six services are the table's rows that refine JMP and TRAP (`alias_of`): the words with BaseR = 7
are `ret`'s, the words with a service vector are the service's (log 26). -/
inductive Instr where
  /-- ADD, register form (R90); `ign` is bits [4:3]. -/
  | addReg (dr sr1 sr2 : RegIx) (ign : BitVec 2)
  /-- ADD, immediate form (R91). -/
  | addImm (dr sr1 : RegIx) (imm5 : BitVec 5)
  /-- AND, register form (R92); `ign` is bits [4:3]. -/
  | andReg (dr sr1 sr2 : RegIx) (ign : BitVec 2)
  /-- AND, immediate form (R93). -/
  | andImm (dr sr1 : RegIx) (imm5 : BitVec 5)
  /-- NOT (R94); `ign` is bits [5:0]. -/
  | not (dr sr : RegIx) (ign : BitVec 6)
  /-- BR (R100): the condition bits n = [11], z = [10], p = [9]. -/
  | br (n z p : Bool) (off : BitVec 9)
  /-- JMP (R101); `ignHi` is bits [11:9], `ignLo` bits [5:0]. -/
  | jmp (base : RegIx) (ignHi : BitVec 3) (ignLo : BitVec 6)
  /-- RET, that is JMP R7 (R71, R101); ignored bits as JMP's. -/
  | ret (ignHi : BitVec 3) (ignLo : BitVec 6)
  /-- JSR (R102). -/
  | jsr (off : BitVec 11)
  /-- JSRR (R103); `ignHi` is bits [10:9], `ignLo` bits [5:0]. -/
  | jsrr (base : RegIx) (ignHi : BitVec 2) (ignLo : BitVec 6)
  /-- LD (R110). -/
  | ld (dr : RegIx) (off : BitVec 9)
  /-- LDI (R111). -/
  | ldi (dr : RegIx) (off : BitVec 9)
  /-- LDR (R112). -/
  | ldr (dr base : RegIx) (off : BitVec 6)
  /-- LEA (R113). -/
  | lea (dr : RegIx) (off : BitVec 9)
  /-- ST (R114). -/
  | st (sr : RegIx) (off : BitVec 9)
  /-- STI (R115). -/
  | sti (sr : RegIx) (off : BitVec 9)
  /-- STR (R116). -/
  | str (sr base : RegIx) (off : BitVec 6)
  /-- TRAP (R130) with its vector; `ign` is bits [11:8], in the services too. -/
  | trap (ign : BitVec 4) (vect : BitVec 8)
  /-- TRAP x20, GETC (R131). -/
  | getc (ign : BitVec 4)
  /-- TRAP x21, OUT (R132). -/
  | out (ign : BitVec 4)
  /-- TRAP x22, PUTS (R133). -/
  | puts (ign : BitVec 4)
  /-- TRAP x23, IN (R134). -/
  | inp (ign : BitVec 4)
  /-- TRAP x24, PUTSP (R135). -/
  | putsp (ign : BitVec 4)
  /-- TRAP x25, HALT (R136). -/
  | halt (ign : BitVec 4)
  /-- RTI, opcode 1000 (R150); `ign` is bits [11:0]. -/
  | rti (ign : BitVec 12)
  /-- The reserved opcode 1101 (R151); `ign` is bits [11:0]. -/
  | reserved (ign : BitVec 12)
  deriving DecidableEq, Repr

/-- The 19 forms of Table 30-2, which partition the 65,536 words (R68). -/
inductive Form where
  | addReg | addImm | andReg | andImm | not | br | jmp | jsr | jsrr | ld | ldi | ldr | lea | st | sti | str
  | trap | rti | reserved
  deriving DecidableEq, Repr

/-- The form an instruction is written in: `ret` is a JMP word, the services are TRAP words (R71). -/
def Instr.form : Instr → Form
  | .addReg .. => .addReg
  | .addImm .. => .addImm
  | .andReg .. => .andReg
  | .andImm .. => .andImm
  | .not .. => .not
  | .br .. => .br
  | .jmp .. => .jmp
  | .ret .. => .jmp
  | .jsr .. => .jsr
  | .jsrr .. => .jsrr
  | .ld .. => .ld
  | .ldi .. => .ldi
  | .ldr .. => .ldr
  | .lea .. => .lea
  | .st .. => .st
  | .sti .. => .sti
  | .str .. => .str
  | .trap .. => .trap
  | .getc .. => .trap
  | .out .. => .trap
  | .puts .. => .trap
  | .inp .. => .trap
  | .putsp .. => .trap
  | .halt .. => .trap
  | .rti .. => .rti
  | .reserved .. => .reserved

end Sys2Proof
end

