-- ==== Sys2Proof/WellFormed.lean ====
section
/-! DEFINITION. Which terms of Instr stand for a word of their own. The field widths are in the types; what is left
is that a word has one term: the table's refining rows (`alias_of`) own their words (log 26). -/

namespace Sys2Proof

/-- The link register R7, the base register of RET (R71). -/
abbrev linkReg : RegIx := 7#3

/-- A well-formed instruction: `jmp` does not name R7 (that word is RET's) and `trap` does not carry a service's
vector (that word is the service's). Every other term is well formed, whatever its ignored bits hold (R66). -/
def Instr.wf : Instr → Bool
  | .jmp base _ _ => base != linkReg
  | .trap _ vect => !Machine.serviceVectors.contains vect
  | .addReg .. | .addImm .. | .andReg .. | .andImm .. | .not .. | .br .. | .ret .. | .jsr .. | .jsrr .. => true
  | .ld .. | .ldi .. | .ldr .. | .lea .. | .st .. | .sti .. | .str .. => true
  | .getc .. | .out .. | .puts .. | .inp .. | .putsp .. | .halt .. | .rti .. | .reserved .. => true

end Sys2Proof
end

