-- ==== Sys2Proof/Machine/Control.lean ====
section
/-! DEFINITION. BR, JMP, RET, JSR, JSRR (spec/42_control.md). `s.pc` is the PC after the fetch increment (R82). -/

namespace Sys2Proof.Machine

/-- BR (R100). -/
def execBr (n z p : Bool) (off : BitVec 9) (s : State) : Host.Outcome State Fault Refusal :=
  .next (if branchTaken n z p s.cond then s.setPc (pcRel9 off s) else s)

/-- JMP (R101). -/
def execJmp (base : RegIx) (_ignHi : BitVec 3) (_ignLo : BitVec 6) (s : State) : Host.Outcome State Fault Refusal :=
  .next (s.setPc (s.reg base))

/-- RET, JMP with BaseR = 7 (R71, R101). -/
def execRet (_ignHi : BitVec 3) (_ignLo : BitVec 6) (s : State) : Host.Outcome State Fault Refusal :=
  .next (s.setPc (s.reg linkReg))

/-- `R7 <- PC`, the linkage of JSR and JSRR; COND is not changed (R102, R103, C2). -/
def link (s : State) : State := s.setReg linkReg s.pc

/-- JSR (R102). -/
def execJsr (off : BitVec 11) (s : State) : Host.Outcome State Fault Refusal :=
  .next ((link s).setPc (pcRel11 off (link s)))

/-- JSRR (R103): BaseR is read after the write of R7, so `JSRR R7` goes on at the next instruction. -/
def execJsrr (base : RegIx) (_ignHi : BitVec 2) (_ignLo : BitVec 6) (s : State) :
    Host.Outcome State Fault Refusal :=
  .next ((link s).setPc ((link s).reg base))

end Sys2Proof.Machine
end

