-- ==== Sys2Proof/Machine/LoadStore.lean ====
section
/-! DEFINITION. LD, LDI, LDR, LEA, ST, STI, STR (spec/43_load_store.md). Every read is a `MemRead` and polls where its
address is KBSR's (R44). -/

namespace Sys2Proof.Machine

/-- The end of a load from `ea`: `R[DR] <- MemRead(ea, 1)`, then `setcc` (R110, R111, R112). -/
def loadReg (dr : RegIx) (ea : Word) (s : State) : State :=
  let r := memRead ea s
  writeReg dr r.1 r.2

/-- LD (R110). -/
def execLd (dr : RegIx) (off : BitVec 9) (s : State) : Host.Outcome State Fault Refusal :=
  .next (loadReg dr (pcRel9 off s) s)

/-- LDI (R111): the pointer is read first, then the data, two separate `MemRead`s. -/
def execLdi (dr : RegIx) (off : BitVec 9) (s : State) : Host.Outcome State Fault Refusal :=
  let p := memRead (pcRel9 off s) s
  .next (loadReg dr p.1 p.2)

/-- LDR (R112). -/
def execLdr (dr base : RegIx) (off : BitVec 6) (s : State) : Host.Outcome State Fault Refusal :=
  .next (loadReg dr (baseOff6 base off s) s)

/-- LEA (R113): no memory is read. -/
def execLea (dr : RegIx) (off : BitVec 9) (s : State) : Host.Outcome State Fault Refusal :=
  .next (writeReg dr (pcRel9 off s) s)

/-- ST (R114). -/
def execSt (sr : RegIx) (off : BitVec 9) (s : State) : Host.Outcome State Fault Refusal :=
  .next (memWrite (pcRel9 off s) (s.reg sr) s)

/-- STI (R115): the pointer read is a `MemRead`. -/
def execSti (sr : RegIx) (off : BitVec 9) (s : State) : Host.Outcome State Fault Refusal :=
  let p := memRead (pcRel9 off s) s
  .next (memWrite p.1 (p.2.reg sr) p.2)

/-- STR (R116). -/
def execStr (sr base : RegIx) (off : BitVec 6) (s : State) : Host.Outcome State Fault Refusal :=
  .next (memWrite (baseOff6 base off s) (s.reg sr) s)

end Sys2Proof.Machine
end

