-- ==== Sys2Proof/Machine/Operate.lean ====
section
/-! DEFINITION. ADD, AND, NOT (spec/41_operate.md). -/

namespace Sys2Proof.Machine

/-- ADD, register form (R90). -/
def execAddReg (dr sr1 sr2 : RegIx) (_ign : BitVec 2) (s : State) : Host.Outcome State Fault Refusal :=
  .next (writeReg dr (s.reg sr1 + s.reg sr2) s)

/-- ADD, immediate form (R91). -/
def execAddImm (dr sr1 : RegIx) (imm5 : BitVec 5) (s : State) : Host.Outcome State Fault Refusal :=
  .next (writeReg dr (s.reg sr1 + sext imm5) s)

/-- AND, register form (R92). -/
def execAndReg (dr sr1 sr2 : RegIx) (_ign : BitVec 2) (s : State) : Host.Outcome State Fault Refusal :=
  .next (writeReg dr (s.reg sr1 &&& s.reg sr2) s)

/-- AND, immediate form (R93). -/
def execAndImm (dr sr1 : RegIx) (imm5 : BitVec 5) (s : State) : Host.Outcome State Fault Refusal :=
  .next (writeReg dr (s.reg sr1 &&& sext imm5) s)

/-- NOT (R94). -/
def execNot (dr sr : RegIx) (_ign : BitVec 6) (s : State) : Host.Outcome State Fault Refusal :=
  .next (writeReg dr (~~~(s.reg sr)) s)

end Sys2Proof.Machine
end

