-- ==== Sys2Proof/Decode.lean ====
section
/-! DEFINITION. The decoder, total on the 65,536 words (spec/30_encoding.md R68: "Decoding is total"; no word is
rejected, the illegal ones are explicit variants, R81), and after it the encoder, both written from Table 30-2. -/

namespace Sys2Proof

/-! ## Fields (R61, Table 30-1) -/

/-- The opcode, bits [15:12] (R60). -/
def opcodeOf (w : Word) : BitVec 4 := w.extractLsb' 12 4

/-- Bits [11:9]: DR, or SR of a store (R61); also JMP's ignored bits [11:9]. -/
def field11to9 (w : Word) : BitVec 3 := w.extractLsb' 9 3

/-- Bits [8:6]: SR1, SR of NOT, BaseR (R61). -/
def field8to6 (w : Word) : BitVec 3 := w.extractLsb' 6 3

/-- Bits [2:0]: SR2 (R61). -/
def field2to0 (w : Word) : BitVec 3 := w.extractLsb' 0 3

/-- Bits [4:3], ignored by the register forms of ADD and AND (R66). -/
def field4to3 (w : Word) : BitVec 2 := w.extractLsb' 3 2

/-- Bits [4:0]: imm5 (R61). -/
def field4to0 (w : Word) : BitVec 5 := w.extractLsb' 0 5

/-- Bits [5:0]: offset6 (R61); ignored by NOT, JMP and JSRR (R66). -/
def field5to0 (w : Word) : BitVec 6 := w.extractLsb' 0 6

/-- Bits [8:0]: PCoffset9 (R61). -/
def field8to0 (w : Word) : BitVec 9 := w.extractLsb' 0 9

/-- Bits [10:0]: PCoffset11 (R61). -/
def field10to0 (w : Word) : BitVec 11 := w.extractLsb' 0 11

/-- Bits [10:9], ignored by JSRR (R66). -/
def field10to9 (w : Word) : BitVec 2 := w.extractLsb' 9 2

/-- Bits [11:8], ignored by TRAP (R66). -/
def field11to8 (w : Word) : BitVec 4 := w.extractLsb' 8 4

/-- Bits [7:0]: trapvect8 (R61). -/
def field7to0 (w : Word) : BitVec 8 := w.extractLsb' 0 8

/-- Bits [11:0], ignored by RTI and opcode 1101 (R66). -/
def field11to0 (w : Word) : BitVec 12 := w.extractLsb' 0 12

/-! ## The decoder -/

/-- Opcode 0001: bit 5 selects ADD's form (R65). -/
def decodeAdd (w : Word) : Instr :=
  if w.getLsbD 5 then .addImm (field11to9 w) (field8to6 w) (field4to0 w)
  else .addReg (field11to9 w) (field8to6 w) (field2to0 w) (field4to3 w)

/-- Opcode 0101: bit 5 selects AND's form (R65). -/
def decodeAnd (w : Word) : Instr :=
  if w.getLsbD 5 then .andImm (field11to9 w) (field8to6 w) (field4to0 w)
  else .andReg (field11to9 w) (field8to6 w) (field2to0 w) (field4to3 w)

/-- Opcode 0100: bit 11 selects JSR or JSRR (R65). -/
def decodeCall (w : Word) : Instr :=
  if w.getLsbD 11 then .jsr (field10to0 w)
  else .jsrr (field8to6 w) (field10to9 w) (field5to0 w)

/-- Opcode 1100: JMP, or RET where BaseR is R7 (R71, log 26). -/
def decodeJump (w : Word) : Instr :=
  if field8to6 w = linkReg then .ret (field11to9 w) (field5to0 w)
  else .jmp (field8to6 w) (field11to9 w) (field5to0 w)

/-- Opcode 1111: the third level of decoding, by trapvect8 (R65, R130, Table 44-1). -/
def decodeTrap (w : Word) : Instr :=
  if field7to0 w = Machine.vecGetc then .getc (field11to8 w)
  else if field7to0 w = Machine.vecOut then .out (field11to8 w)
  else if field7to0 w = Machine.vecPuts then .puts (field11to8 w)
  else if field7to0 w = Machine.vecIn then .inp (field11to8 w)
  else if field7to0 w = Machine.vecPutsp then .putsp (field11to8 w)
  else if field7to0 w = Machine.vecHalt then .halt (field11to8 w)
  else .trap (field11to8 w) (field7to0 w)

/-- Decoding (R68, Table 40-1; the opcode numbers are Table 30-5's, D2: PRESUMED, log 2). The last case is
opcode 1111, TRAP. -/
def decode (w : Word) : Instr :=
  match opcodeOf w with
  | 0b0000#4 => .br (w.getLsbD 11) (w.getLsbD 10) (w.getLsbD 9) (field8to0 w)
  | 0b0001#4 => decodeAdd w
  | 0b0010#4 => .ld (field11to9 w) (field8to0 w)
  | 0b0011#4 => .st (field11to9 w) (field8to0 w)
  | 0b0100#4 => decodeCall w
  | 0b0101#4 => decodeAnd w
  | 0b0110#4 => .ldr (field11to9 w) (field8to6 w) (field5to0 w)
  | 0b0111#4 => .str (field11to9 w) (field8to6 w) (field5to0 w)
  | 0b1000#4 => .rti (field11to0 w)
  | 0b1001#4 => .not (field11to9 w) (field8to6 w) (field5to0 w)
  | 0b1010#4 => .ldi (field11to9 w) (field8to0 w)
  | 0b1011#4 => .sti (field11to9 w) (field8to0 w)
  | 0b1100#4 => decodeJump w
  | 0b1101#4 => .reserved (field11to0 w)
  | 0b1110#4 => .lea (field11to9 w) (field8to0 w)
  | _ => decodeTrap w

/-! ## The encoder (Table 30-1, Table 30-2) -/

/-- A field at its place in a word: its bit 0 at bit `lo` (R61), zeros elsewhere. -/
def place {n : Nat} (v : BitVec n) (lo : Nat) : Word := v.setWidth 16 <<< lo

/-- The word of an instruction, its ignored bits as the term carries them. -/
def encode : Instr → Word
  | .addReg dr sr1 sr2 ign =>
    place 0b0001#4 12 ||| place dr 9 ||| place sr1 6 ||| place 0b0#1 5 ||| place ign 3 ||| place sr2 0
  | .addImm dr sr1 imm5 => place 0b0001#4 12 ||| place dr 9 ||| place sr1 6 ||| place 0b1#1 5 ||| place imm5 0
  | .andReg dr sr1 sr2 ign =>
    place 0b0101#4 12 ||| place dr 9 ||| place sr1 6 ||| place 0b0#1 5 ||| place ign 3 ||| place sr2 0
  | .andImm dr sr1 imm5 => place 0b0101#4 12 ||| place dr 9 ||| place sr1 6 ||| place 0b1#1 5 ||| place imm5 0
  | .not dr sr ign => place 0b1001#4 12 ||| place dr 9 ||| place sr 6 ||| place ign 0
  | .br n z p off =>
    place 0b0000#4 12 ||| place (BitVec.ofBool n) 11 ||| place (BitVec.ofBool z) 10 |||
      place (BitVec.ofBool p) 9 ||| place off 0
  | .jmp base ignHi ignLo => place 0b1100#4 12 ||| place ignHi 9 ||| place base 6 ||| place ignLo 0
  | .ret ignHi ignLo => place 0b1100#4 12 ||| place ignHi 9 ||| place linkReg 6 ||| place ignLo 0
  | .jsr off => place 0b0100#4 12 ||| place 0b1#1 11 ||| place off 0
  | .jsrr base ignHi ignLo =>
    place 0b0100#4 12 ||| place 0b0#1 11 ||| place ignHi 9 ||| place base 6 ||| place ignLo 0
  | .ld dr off => place 0b0010#4 12 ||| place dr 9 ||| place off 0
  | .ldi dr off => place 0b1010#4 12 ||| place dr 9 ||| place off 0
  | .ldr dr base off => place 0b0110#4 12 ||| place dr 9 ||| place base 6 ||| place off 0
  | .lea dr off => place 0b1110#4 12 ||| place dr 9 ||| place off 0
  | .st sr off => place 0b0011#4 12 ||| place sr 9 ||| place off 0
  | .sti sr off => place 0b1011#4 12 ||| place sr 9 ||| place off 0
  | .str sr base off => place 0b0111#4 12 ||| place sr 9 ||| place base 6 ||| place off 0
  | .trap ign vect => place 0b1111#4 12 ||| place ign 8 ||| place vect 0
  | .getc ign => place 0b1111#4 12 ||| place ign 8 ||| place Machine.vecGetc 0
  | .out ign => place 0b1111#4 12 ||| place ign 8 ||| place Machine.vecOut 0
  | .puts ign => place 0b1111#4 12 ||| place ign 8 ||| place Machine.vecPuts 0
  | .inp ign => place 0b1111#4 12 ||| place ign 8 ||| place Machine.vecIn 0
  | .putsp ign => place 0b1111#4 12 ||| place ign 8 ||| place Machine.vecPutsp 0
  | .halt ign => place 0b1111#4 12 ||| place ign 8 ||| place Machine.vecHalt 0
  | .rti ign => place 0b1000#4 12 ||| place ign 0
  | .reserved ign => place 0b1101#4 12 ||| place ign 0

/-! ## The rows of the opcode table (Table 30-3: the fixed bits of each form) -/

/-- The mask of a form's row: the bits that select it. -/
def Form.mask : Form → Word
  | .addReg | .addImm | .andReg | .andImm => 0xF020#16
  | .jsr | .jsrr => 0xF800#16
  | .not | .br | .jmp | .ld | .ldi | .ldr | .lea | .st | .sti | .str | .trap | .rti | .reserved => 0xF000#16

/-- The values of the bits of a form's row that select it. -/
def Form.pattern : Form → Word
  | .addReg => 0x1000#16
  | .addImm => 0x1020#16
  | .andReg => 0x5000#16
  | .andImm => 0x5020#16
  | .not => 0x9000#16
  | .br => 0x0000#16
  | .jmp => 0xC000#16
  | .jsr => 0x4800#16
  | .jsrr => 0x4000#16
  | .ld => 0x2000#16
  | .ldi => 0xA000#16
  | .ldr => 0x6000#16
  | .lea => 0xE000#16
  | .st => 0x3000#16
  | .sti => 0xB000#16
  | .str => 0x7000#16
  | .trap => 0xF000#16
  | .rti => 0x8000#16
  | .reserved => 0xD000#16

/-- A word is of a form when it agrees with the form's row on the row's mask. -/
def Form.covers (f : Form) (w : Word) : Bool := w &&& f.mask == f.pattern

/-! ## What the host reads -/

/-- The instruction the decoder reads from the bits of a table row; a row is one 16-bit word (R60), so a number
of more than 16 bits is none of this machine's. -/
def decodeTableWord (nbits w : Nat) : Option Instr :=
  if nbits ≤ 16 then some (decode (BitVec.ofNat 16 (w % 2 ^ nbits))) else none

end Sys2Proof
end

