-- ==== Sys2Proof/Machine/Reserved.lean ====
section
/-! DEFINITION. RTI and the reserved opcode (spec/45_reserved.md): both end the run with a fatal fault, which is a next
state, run = Faulted (R161, log 17). -/

namespace Sys2Proof.Machine

/-- RTI, opcode 1000 (R150). -/
def execRti (ign : BitVec 12) (s : State) : Host.Outcome State Fault Refusal :=
  .next (raiseFault (.reservedOpcode 0b1000#4) (encode (.rti ign)) s)

/-- Opcode 1101 (R151). -/
def execReserved (ign : BitVec 12) (s : State) : Host.Outcome State Fault Refusal :=
  .next (raiseFault (.reservedOpcode 0b1101#4) (encode (.reserved ign)) s)

end Sys2Proof.Machine
end

