-- ==== Sys2Proof/Machine/Trap.lean ====
section
/-! DEFINITION. TRAP and its six services (spec/44_trap.md). A service is performed inside the TRAP step; it reads no
vector table and does not write R7 (R130). -/

namespace Sys2Proof.Machine

/-- R0, the operand or result of every service (R23). -/
abbrev trapReg : RegIx := 0#3

/-! ## GETC and IN -/

/-- GETC's end, or its wait (R131, R138): with a character, `R0` and `setcc`; without one, the service stays under way
and nothing is written. -/
def getcAttempt (s : State) : State :=
  match hostGetChar s with
  | (some c, s') => (writeReg trapReg c s').setPending none
  | (none, s') => s'.setPending (some .getc)

/-- IN's end, or its wait (R134, R138): with a character, the echo, then `R0` and `setcc`. The prompt is written once,
before the first attempt. -/
def inAttempt (s : State) : State :=
  match hostGetChar s with
  | (some c, s') => (writeReg trapReg c (putBytes [lowByte c] s')).setPending none
  | (none, s') => s'.setPending (some .inp)

/-- GETC (R131). -/
def serviceGetc (s : State) : State := getcAttempt s

/-- IN (R134): the prompt, then the wait. -/
def serviceIn (s : State) : State := inAttempt (putBytes s.params.inPrompt s)

/-! ## OUT, PUTS, PUTSP -/

/-- OUT (R132). -/
def serviceOut (s : State) : State := putBytes [lowByte (s.reg trapReg)] s

/-- PUTS writes a word's low byte (R133, D14). -/
def putsChars (w : Word) : List Byte := [lowByte w]

/-- PUTSP writes a word's low byte, then its high byte if that is not 0 (R135). -/
def putspChars (w : Word) : List Byte :=
  if highByte w = 0#8 then [lowByte w] else [lowByte w, highByte w]

/-- The loop of PUTS and PUTSP (R133, R135): read words from `a` on through `MemRead`, write each one's characters, stop at
a word equal to 0. `none` where a zero word was met within `n` words; else the address after them. -/
def readString (chars : Word → List Byte) : Nat → Word → State → Option Word × State
  | 0, a, s => (some a, s)
  | n + 1, a, s =>
    let r := memRead a s
    if r.1 = 0#16 then (none, r.2) else readString chars n (a + 1#16) (putBytes (chars r.1) r.2)

/-- The number of words of memory: how many words one round through the whole memory reads. -/
def memoryWords : Nat := 65536

/-- A number of words that no string outlasts: each round through the whole memory polls the keyboard once, so after one
round for each transaction the host's script lists, and two more, every word is as it was a round before
(Laws/Strings.lean proves it). -/
def stringBound (s : State) : Nat := memoryWords * (s.hostIn.length + 2)

/-- A service of strings, from an address on. A string that ends is written in this one step (R13). One that never ends
(R133) writes for ever: what it has written is in the output, the CORE's state shows nothing of it (R13, R165), and the
step does not complete (log 21). -/
def writeString (chars : Word → List Byte) (a : Word) (s : State) : State :=
  match readString chars (stringBound s) a s with
  | (none, t) => t
  | (some b, t) =>
    let round := (readString chars memoryWords b (t.setOut [])).2.out
    (s.setOut t.out).setPending (some (.endless round))

/-- PUTS (R133). -/
def servicePuts (s : State) : State := writeString putsChars (s.reg trapReg) s

/-- PUTSP (R135). -/
def servicePutsp (s : State) : State := writeString putspChars (s.reg trapReg) s

/-! ## HALT -/

/-- HALT (R136): the halt notice, then the run state Halted. -/
def serviceHalt (s : State) : State := (putBytes s.params.haltNotice s).setRun .halted

/-! ## The dispatcher and the meanings -/

/-- The trap dispatcher (R130, Table 44-1); `instr` is the TRAP's word, for the fault record (R137). -/
def trapDispatch (vect : BitVec 8) (instr : Word) (s : State) : State :=
  if vect = vecGetc then serviceGetc s
  else if vect = vecOut then serviceOut s
  else if vect = vecPuts then servicePuts s
  else if vect = vecIn then serviceIn s
  else if vect = vecPutsp then servicePutsp s
  else if vect = vecHalt then serviceHalt s
  else raiseFault (.unsupportedTrap vect) instr s

/-- TRAP (R130). A well-formed `trap` carries an unsupported vector and faults (R137). -/
def execTrap (ign : BitVec 4) (vect : BitVec 8) (s : State) : Host.Outcome State Fault Refusal :=
  .next (trapDispatch vect (encode (.trap ign vect)) s)

/-- GETC (R131). -/
def execGetc (_ign : BitVec 4) (s : State) : Host.Outcome State Fault Refusal := .next (serviceGetc s)

/-- OUT (R132). -/
def execOut (_ign : BitVec 4) (s : State) : Host.Outcome State Fault Refusal := .next (serviceOut s)

/-- PUTS (R133). -/
def execPuts (_ign : BitVec 4) (s : State) : Host.Outcome State Fault Refusal := .next (servicePuts s)

/-- IN (R134). -/
def execIn (_ign : BitVec 4) (s : State) : Host.Outcome State Fault Refusal := .next (serviceIn s)

/-- PUTSP (R135). -/
def execPutsp (_ign : BitVec 4) (s : State) : Host.Outcome State Fault Refusal := .next (servicePutsp s)

/-- HALT (R136). -/
def execHalt (_ign : BitVec 4) (s : State) : Host.Outcome State Fault Refusal := .next (serviceHalt s)

/-- Go on with the service whose step has not completed: another attempt to read a character (log 20), or the next round of
a string that never ends (log 21). -/
def resume (p : Pending) (s : State) : State :=
  match p with
  | .getc => getcAttempt s
  | .inp => inAttempt s
  | .endless round => putBytes round s

end Sys2Proof.Machine
end

