-- ==== Sys2Proof/Machine/Dispatch.lean ====
section
/-! DEFINITION. The dispatch (spec/40_execution_cycle.md R81, Table 40-1): one arm per constructor of Instr, each a
direct call of its meaning. `s` is the state after the fetch (R82, R83). -/

namespace Sys2Proof.Machine

/-- What an instruction does, once fetched and decoded (R81). -/
def exec (i : Instr) (s : State) : Host.Outcome State Fault Refusal :=
  match i with
  | .addReg dr sr1 sr2 ign => Sys2Proof.Machine.execAddReg dr sr1 sr2 ign s
  | .addImm dr sr1 imm5 => Sys2Proof.Machine.execAddImm dr sr1 imm5 s
  | .andReg dr sr1 sr2 ign => Sys2Proof.Machine.execAndReg dr sr1 sr2 ign s
  | .andImm dr sr1 imm5 => Sys2Proof.Machine.execAndImm dr sr1 imm5 s
  | .not dr sr ign => Sys2Proof.Machine.execNot dr sr ign s
  | .br n z p off => Sys2Proof.Machine.execBr n z p off s
  | .jmp base ignHi ignLo => Sys2Proof.Machine.execJmp base ignHi ignLo s
  | .ret ignHi ignLo => Sys2Proof.Machine.execRet ignHi ignLo s
  | .jsr off => Sys2Proof.Machine.execJsr off s
  | .jsrr base ignHi ignLo => Sys2Proof.Machine.execJsrr base ignHi ignLo s
  | .ld dr off => Sys2Proof.Machine.execLd dr off s
  | .ldi dr off => Sys2Proof.Machine.execLdi dr off s
  | .ldr dr base off => Sys2Proof.Machine.execLdr dr base off s
  | .lea dr off => Sys2Proof.Machine.execLea dr off s
  | .st sr off => Sys2Proof.Machine.execSt sr off s
  | .sti sr off => Sys2Proof.Machine.execSti sr off s
  | .str sr base off => Sys2Proof.Machine.execStr sr base off s
  | .trap ign vect => Sys2Proof.Machine.execTrap ign vect s
  | .getc ign => Sys2Proof.Machine.execGetc ign s
  | .out ign => Sys2Proof.Machine.execOut ign s
  | .puts ign => Sys2Proof.Machine.execPuts ign s
  | .inp ign => Sys2Proof.Machine.execIn ign s
  | .putsp ign => Sys2Proof.Machine.execPutsp ign s
  | .halt ign => Sys2Proof.Machine.execHalt ign s
  | .rti ign => Sys2Proof.Machine.execRti ign s
  | .reserved ign => Sys2Proof.Machine.execReserved ign s

end Sys2Proof.Machine
end

