-- ==== Sys2Proof/Machine/Step.lean ====
section
/-! DEFINITION. One step (spec/40_execution_cycle.md R80), with the host's interruption at its boundary (R168). -/

namespace Sys2Proof.Machine

/-- The work of a step at which the host does not interrupt: fetch, decode and execute one instruction (R80), or go on
with the service whose step has not completed (log 20, log 21). -/
def advance (s : State) : Host.Outcome State Fault Refusal :=
  match s.pending with
  | none => exec (decode (fetch s).1) (fetch s).2
  | some p => .next (resume p s)

/-- One step. Only a Running machine steps (R80); in a final run state there is no step, and the outcome names that
state (log 18). At an interruptible boundary the host may end the run (R168, log 19). -/
def step (s : State) : Host.Outcome State Fault Refusal :=
  match s.run with
  | .running => if s.interruptedNow then .next s.cancel else advance s.tick
  | .halted => .fault .halted
  | .faulted record => .fault (.faulted record)
  | .cancelled => .fault .cancelled

/-- `s` with one instruction word stored where `step` fetches next, and with what that fetch needs: Running, no service
under way, no interruption at this boundary (log 24). A word is 16 bits, so `nbits` above 16 adds only zero bits. -/
def State.withFetchWord (s : State) (nbits w : Nat) : State :=
  let s := memWrite s.pc (BitVec.ofNat 16 (w % 2 ^ nbits)) s
  let s := s.setInterruptIn (if s.interruptIn = some 0 then none else s.interruptIn)
  (s.setPending none).setRun .running

end Sys2Proof.Machine
end

