-- ==== Sys2Proof/Machine/Boot.lean ====
section
/-! DEFINITION. The three stages before the first step: clear, load, start (spec/70_reset_and_hazards.md R180 to R184), and
the byte layout of a program image (R182). The host's part of it, which files it names and its exit statuses (R186),
is outside the CORE (R4). -/

namespace Sys2Proof.Machine

/-- Why an image is not loaded, so that the CORE never starts (R183). -/
inductive LoadFailure where
  /-- The image cannot be opened. -/
  | cannotOpen
  /-- Its byte count is odd ("truncated mid-word"). -/
  | truncatedMidWord
  /-- It has no origin word, or an origin word and no program word. -/
  | noProgramWord
  /-- Its words would run past address 0xFFFF (D18, log 23). -/
  | pastTop
  deriving DecidableEq, Repr

/-- The machine before it starts: it has no run state yet (R180, R181). -/
structure PreStart where
  regs : Vector Word 8
  pc : Word
  cond : Word
  mem : Memory
  deriving DecidableEq, Repr

/-- Clear (R180): every register, PC, COND and every memory word 0x0000. -/
def PreStart.cleared : PreStart where
  regs := Vector.replicate 8 0x0000#16
  pc := 0x0000#16
  cond := 0x0000#16
  mem := []

/-- A byte sequence as big-endian words (R182); none where its length is odd. -/
def bigEndianWords : List Byte → Option (List Word)
  | [] => some []
  | [_] => none
  | hi :: lo :: rest => (bigEndianWords rest).map (fun ws => BitVec.ofNat 16 (hi.toNat * 256 + lo.toNat) :: ws)

/-- `M[origin + i] <- word i`, in order (R182). -/
def loadWords (mem : Memory) (origin : Nat) : List Word → Memory
  | [] => mem
  | w :: ws => loadWords (mem.set origin w) (origin + 1) ws

/-- An image's words, origin first, into memory (R182), or the failure (R183). -/
def loadImageWords (mem : Memory) : List Word → Except LoadFailure Memory
  | [] => .error .noProgramWord
  | [_] => .error .noProgramWord
  | origin :: w :: ws =>
    if origin.toNat + (w :: ws).length > 65536 then .error .pastTop
    else .ok (loadWords mem origin.toNat (w :: ws))

/-- One image into memory; `none` is an image that cannot be opened (R182, R183). -/
def loadImage (image : Option (List Byte)) (mem : Memory) : Except LoadFailure Memory :=
  match image with
  | none => .error .cannotOpen
  | some bytes =>
    match bigEndianWords bytes with
    | none => .error .truncatedMidWord
    | some ws => loadImageWords mem ws

/-- The images in order (R181): a later image's word is the one that stays; one failure and no run is admitted (R183). -/
def loadImages : List (Option (List Byte)) → Memory → Except LoadFailure Memory
  | [], mem => .ok mem
  | image :: images, mem =>
    match loadImage image mem with
    | .error e => .error e
    | .ok mem' => loadImages images mem'

/-- Load (R181): only memory words are written. -/
def PreStart.load (p : PreStart) (images : List (Option (List Byte))) : Except LoadFailure PreStart :=
  match loadImages images p.mem with
  | .error e => .error e
  | .ok mem' => .ok { p with mem := mem' }

/-- Start (R184): COND <- Z, PC <- 0x3000, Running. The model's own fields are the reset machine's. -/
def PreStart.start (p : PreStart) : State :=
  { State.reset with regs := p.regs, pc := startAddr, cond := flagZ, mem := p.mem, run := .running }

/-- The machine when execution starts with these images (R180, R181, R184). -/
def boot (images : List (Option (List Byte))) : Except LoadFailure State :=
  match PreStart.cleared.load images with
  | .error e => .error e
  | .ok p => .ok p.start

/-! ## The host's exit statuses (R186): host facts, no state of the CORE -/

/-- The exit status of a run that ended, where the source gives one: 0 after HALT (R85, R186); after a fault or a
cancellation it is not given. -/
def exitStatus : RunState → Option Nat
  | .halted => some 0
  | .running | .faulted _ | .cancelled => none

/-- The exit status of a host that starts no run: 2 with no image named, 1 where an image fails to load (R186). -/
def startStatus (images : List (Option (List Byte))) : Option Nat :=
  match images, boot images with
  | [], _ => some 2
  | _ :: _, .error _ => some 1
  | _ :: _, .ok _ => none

end Sys2Proof.Machine
end

