-- ==== Sys2Proof/Safety.lean ====
section
/-! DEFINITION. What counts as a sound state, in the terms the claims use. -/

namespace Sys2Proof.Machine

/-- What every step keeps: memory in its canonical form, COND one-hot (R26), the two device addresses apart (R42), and no
service left to complete once the run has ended (R29: nothing leaves a final state). -/
abbrev Inv (s : State) : Prop :=
  s.mem.wf = true ∧ oneHot s.cond = true ∧ s.params.kbsrAddr ≠ s.params.kbdrAddr ∧
    (s.pending ≠ none → s.run = .running)

/-- Ready to run the next instruction: Running, no service left to complete, the host not interrupting at this boundary. -/
abbrev Ready (s : State) : Prop :=
  s.run = .running ∧ s.pending = none ∧ s.interruptIn ≠ some 0

/-- `s'` is one step after `s`. -/
def Steps (s s' : State) : Prop := step s = .next s'

/-- `s'` is reached from `s` by zero or more steps. -/
inductive Reaches : State → State → Prop where
  | refl (s : State) : Reaches s s
  | step {s s' s'' : State} : Reaches s s' → Steps s' s'' → Reaches s s''

end Sys2Proof.Machine

/-! ## The vocabulary of the claims: what stays as it was, the flag a word calls for, the words that fault -/

namespace Sys2Proof.Machine

/-- Every general register outside `rs` is as it was. -/
def SameRegsBut (rs : List RegIx) (s t : State) : Prop := ∀ r, r ∉ rs → t.reg r = s.reg r

/-- Every word of memory outside `as` reads as it did. -/
def SameMemBut (as : List Word) (s t : State) : Prop := ∀ a : Word, a ∉ as → t.word a = s.word a

/-- The host's side is as it was: the coming input, the characters read after its end, the countdown to an interruption. -/
def SameHost (s t : State) : Prop :=
  t.hostIn = s.hostIn ∧ t.eofDraws = s.eofDraws ∧ t.interruptIn = s.interruptIn

/-- The run goes on as it did: run state, service left to complete, parameters, output. -/
def SameRun (s t : State) : Prop :=
  t.run = s.run ∧ t.pending = s.pending ∧ t.params = s.params ∧ t.out = s.out

/-- The flag a word calls for (R10): Z for zero, N where bit 15 is set, else P. -/
def FlagFor (v cond : Word) : Prop :=
  (v.toNat = 0 → cond = flagZ) ∧ (0x8000 ≤ v.toNat → cond = flagN) ∧
    (0 < v.toNat → v.toNat < 0x8000 → cond = flagP)

/-- A base and a two's-complement offset, summed as integers and taken modulo 2^16 (R9, R11, R63). -/
def addSigned {n : Nat} (base : Word) (off : BitVec n) : Word := BitVec.ofInt 16 ((base.toNat : Int) + off.toInt)

/-- The words that fault (R67): opcode 1000, opcode 1101, and TRAP with a vector outside 0x20..0x25. -/
abbrev Illegal (w : Word) : Prop :=
  opcodeOf w = 0b1000#4 ∨ opcodeOf w = 0b1101#4 ∨
    (opcodeOf w = 0b1111#4 ∧ ¬ (0x20 ≤ w.toNat % 256 ∧ w.toNat % 256 ≤ 0x25))

/-- The reason an illegal word faults with (R160, Table 60-1). -/
def reasonFor (w : Word) : FaultReason :=
  if opcodeOf w = 0b1111#4 then .unsupportedTrap (BitVec.ofNat 8 w.toNat) else .reservedOpcode (opcodeOf w)

/-- The bits a form names or fixes: every bit but the `.` of Table 30-3 (R66). -/
def usedBits : Form → Word
  | .addReg | .andReg => 0xFFE7#16
  | .addImm | .andImm | .br | .jsr | .ld | .ldi | .ldr | .lea | .st | .sti | .str => 0xFFFF#16
  | .not => 0xFFC0#16
  | .jmp => 0xF1C0#16
  | .jsrr => 0xF9C0#16
  | .trap => 0xF0FF#16
  | .rti | .reserved => 0xF000#16

/-- A string in memory from `a` on, read through `MemRead` (R133, R135): `n` words that are not 0, then a word equal to
0; `bs` is their characters in order, and the last state is the one the reads leave. -/
inductive StringRead (chars : Word → List Byte) : Word → State → Nat → List Byte → State → Prop where
  | stop {a : Word} {s : State} : (memRead a s).1 = 0#16 → StringRead chars a s 0 [] (memRead a s).2
  | more {a : Word} {s t : State} {n : Nat} {bs : List Byte} : (memRead a s).1 ≠ 0#16 →
      StringRead chars (a + 1#16) (memRead a s).2 n bs t →
      StringRead chars a s (n + 1) (chars (memRead a s).1 ++ bs) t

/-- The first `n` words from `a` on, read through `MemRead`, are none of them 0, and `bs` is their characters in order. -/
inductive StringOn (chars : Word → List Byte) : Word → State → Nat → List Byte → Prop where
  | start {a : Word} {s : State} : StringOn chars a s 0 []
  | more {a : Word} {s : State} {n : Nat} {bs : List Byte} : (memRead a s).1 ≠ 0#16 →
      StringOn chars (a + 1#16) (memRead a s).2 n bs → StringOn chars a s (n + 1) (chars (memRead a s).1 ++ bs)

/-- A poll here finds the key code `c` and leaves the host at `h'` (R57): the next byte, or, after the end of input, what
`HOST_EOF` is for a poll. -/
def PollFinds (s : State) (c : Word) (h' : HostInput) : Prop :=
  (∃ b, s.hostIn = .byte b h' ∧ c.toNat = b.toNat) ∨
    (s.hostIn = .ended ∧ s.params.hostEofPoll = some c ∧ h' = .ended)

/-- A poll here finds no key and leaves the host at `h'` (R57). -/
def PollFindsNothing (s : State) (h' : HostInput) : Prop :=
  s.hostIn = .later h' ∨ (s.hostIn = .silent ∧ h' = .silent) ∨
    (s.hostIn = .ended ∧ s.params.hostEofPoll = none ∧ h' = .ended)

/-- PUTS's character of a word: its value modulo 256 (R133). -/
def putsText (w : Word) : List Byte := [BitVec.ofNat 8 w.toNat]

/-- PUTSP's characters of a word: its value modulo 256, then its value divided by 256 if that is not 0 (R135). -/
def putspText (w : Word) : List Byte :=
  BitVec.ofNat 8 w.toNat :: if w.toNat / 256 = 0 then [] else [BitVec.ofNat 8 (w.toNat / 256)]

/-- The registers an instruction may write (Table 10-1). -/
def writtenRegs : Instr → List RegIx
  | .addReg dr .. | .addImm dr .. | .andReg dr .. | .andImm dr .. | .not dr .. => [dr]
  | .ld dr .. | .ldi dr .. | .ldr dr .. | .lea dr .. => [dr]
  | .jsr .. | .jsrr .. => [7#3]
  | .getc .. | .inp .. => [0#3]
  | .trap _ vect => if vect = 0x20#8 ∨ vect = 0x23#8 then [0#3] else []
  | _ => []

/-- The instructions that call `setcc` (R27): those that write a register, but for JSR and JSRR. -/
def callsSetcc : Instr → Bool
  | .jsr .. | .jsrr .. => false
  | i => !(writtenRegs i).isEmpty

/-- The address an instruction stores to (Table 20-1): ST, STI and STR. -/
def storeAddress (i : Instr) (s : State) : Option Word :=
  match i with
  | .st _ off => some (pcRel9 off s)
  | .sti _ off => some (memRead (pcRel9 off s) s).1
  | .str _ base off => some (baseOff6 base off s)
  | _ => none

/-- PUTS and PUTSP read the word at `a`: no zero word stands between the address in R0 and `a` (R133, R135). -/
def StringReaches (s : State) (a : Word) : Prop :=
  ∃ k : Nat, s.reg 0#3 + BitVec.ofNat 16 k = a ∧ ∀ j < k, s.word (s.reg 0#3 + BitVec.ofNat 16 j) ≠ 0#16

/-- The instruction reads KBSR as data, and so polls (Table 20-1, R44). -/
def ReadsKbsr (i : Instr) (s : State) : Prop :=
  match i with
  | .ld _ off | .sti _ off => pcRel9 off s = s.params.kbsrAddr
  | .ldi _ off => pcRel9 off s = s.params.kbsrAddr ∨ s.word (pcRel9 off s) = s.params.kbsrAddr
  | .ldr _ base off => baseOff6 base off s = s.params.kbsrAddr
  | .puts _ | .putsp _ => StringReaches s s.params.kbsrAddr
  | .trap _ vect => (vect = 0x22#8 ∨ vect = 0x24#8) ∧ StringReaches s s.params.kbsrAddr
  | _ => False

/-- The services that write to the host's output (R169). -/
def writesOutput : Instr → Bool
  | .out .. | .puts .. | .inp .. | .putsp .. | .halt .. => true
  | .trap _ vect => [0x21#8, 0x22#8, 0x23#8, 0x24#8, 0x25#8].contains vect
  | _ => false

end Sys2Proof.Machine
end

