-- ==== Sys2Proof/Certificates/Slice0/Obligations.lean ====
section
/-! DEFINITION. The statements about the model, from the numbered rules of spec/. `s` is a state after the fetch where a
statement speaks of `exec` (R82): `s.pc` is the address of the next instruction. -/

open Sys2Proof Sys2Proof.Machine

/-! ## Encoding and decoding -/

/-- Words written out from spec/30_encoding.md Table 30-3 and spec/95_test_vectors.md decode to what they stand for. The
opcode numbers are general knowledge (D2, log 2), the service vectors too (D3, log 3). -/
def Obligations.SpecWordsDecodeAsWritten : Prop :=
  decode 0x1401#16 = .addReg 2 0 1 0 ∧ decode 0x127F#16 = .addImm 1 1 0x1F ∧
  decode 0x5642#16 = .andReg 3 1 2 0 ∧ decode 0x923F#16 = .not 1 0 0x3F ∧
  decode 0x0403#16 = .br false true false 3 ∧ decode 0xC0C0#16 = .jmp 3 0 0 ∧ decode 0xC1C0#16 = .ret 0 0 ∧
  decode 0x4810#16 = .jsr 0x010 ∧ decode 0x4080#16 = .jsrr 2 0 0 ∧
  decode 0x2404#16 = .ld 2 4 ∧ decode 0xA601#16 = .ldi 3 1 ∧ decode 0x687F#16 = .ldr 4 1 0x3F ∧
  decode 0xE001#16 = .lea 0 1 ∧ decode 0x3002#16 = .st 0 2 ∧ decode 0xB201#16 = .sti 1 1 ∧
  decode 0x7183#16 = .str 0 6 3 ∧ decode 0xF026#16 = .trap 0 0x26 ∧ decode 0xF125#16 = .halt 1 ∧
  decode 0xF020#16 = .getc 0 ∧ decode 0x8FFF#16 = .rti 0xFFF ∧ decode 0xD000#16 = .reserved 0

/-- Decoding the word of a well-formed instruction gives it back, every field and every ignored bit at every value. -/
def Obligations.DecodeOfEncodeIsTheInstruction : Prop :=
  ∀ i : Instr, i.wf = true → decode (encode i) = i

/-- Every word decodes to a well-formed instruction whose word it is: decoding is total and drops no bit (R68). -/
def Obligations.EncodeOfDecodeIsTheWord : Prop :=
  ∀ w : Word, (decode w).wf = true ∧ encode (decode w) = w

/-- Every word agrees with exactly one of the 19 rows of Table 30-3, the row of the instruction it decodes to (R68). -/
def Obligations.EveryWordHasExactlyOneForm : Prop :=
  ∀ w : Word, (decode w).form.covers w = true ∧ ∀ f : Form, f.covers w = true → f = (decode w).form

/-- The words that end a Running machine in a fault are exactly the illegal ones (R67): opcodes 1000 and 1101, and TRAP
with a vector outside the six. -/
def Obligations.FaultingWordsAreExactlyTheIllegalOnes : Prop :=
  ∀ (s : State) (w : Word), s.run = .running →
    ∃ t, exec (decode w) s = .next t ∧ ((∃ record, t.run = .faulted record) ↔ Illegal w)

/-- The bits no format names change nothing an instruction does (R66, the spec's decision D6, log 6): two words that
agree on the bits the first one's form names do the same, where the first is legal. -/
def Obligations.IgnoredBitsChangeNothing : Prop :=
  ∀ (s : State) (w w' : Word), ¬ Illegal w →
    w &&& usedBits (decode w).form = w' &&& usedBits (decode w).form → exec (decode w) s = exec (decode w') s

/-! ## The cycle and the run state -/

/-- A step runs the instruction the word at the PC decodes to, at the incremented PC (R80, R82). Around it the model
takes one boundary off the host's countdown to an interruption (log 19). -/
def Obligations.StepRunsTheDecodedInstruction : Prop :=
  ∀ (s : State) (i : Instr), Ready s → s.pc ≠ s.params.kbsrAddr → i.wf = true → s.word s.pc = encode i →
    step s = exec i { s with pc := s.pc + 1#16, interruptIn := s.interruptIn.map (· - 1) }

/-- A fetch from KBSR polls (R80, R44; that a fetch polls is D7, log 7): with a key the word fetched is 0x8000, which is
RTI and faults (R150), the key left in KBDR; without one it is 0x0000, which only advances the PC (R69). The value 0x8000
and the code in KBDR are D8 and D10 (log 8), that the poll consumes the key is D9 (log 9), what it finds after the end
of input is D10 OPEN (log 11), the fault record is D16 (log 17). -/
def Obligations.FetchFromKbsrPolls : Prop :=
  ∀ s : State, Ready s → Inv s → s.pc = s.params.kbsrAddr →
    (∀ c h', PollFinds s c h' → ∃ t, step s = .next t ∧
      t.run = .faulted { reason := .reservedOpcode 0b1000#4, instr := 0x8000#16, pc := s.pc + 1#16 } ∧
      t.pc = s.pc + 1#16 ∧ t.word s.params.kbsrAddr = 0x8000#16 ∧ t.word s.params.kbdrAddr = c ∧ t.hostIn = h' ∧
      SameRegsBut [] s t ∧ t.cond = s.cond ∧ SameMemBut [s.params.kbsrAddr, s.params.kbdrAddr] s t ∧
      t.out = s.out ∧ t.eofDraws = s.eofDraws ∧ t.params = s.params) ∧
    (∀ h', PollFindsNothing s h' → ∃ t, step s = .next t ∧ t.run = .running ∧ t.pc = s.pc + 1#16 ∧
      t.word s.params.kbsrAddr = 0#16 ∧ t.word s.params.kbdrAddr = 0#16 ∧ t.hostIn = h' ∧
      SameRegsBut [] s t ∧ t.cond = s.cond ∧ SameMemBut [s.params.kbsrAddr, s.params.kbdrAddr] s t ∧
      t.out = s.out ∧ t.eofDraws = s.eofDraws ∧ t.params = s.params ∧ t.pending = none)

/-- A step answers a next state exactly while the machine is Running (R80); nothing leaves Halted, Faulted or Cancelled
(R29, R85), and no instruction stops a Running machine without a next state (R162). Where the spec's step does not
complete, the next states are the model's choice: the wait of GETC or IN (R138, log 20) and a string that never ends
(R133, log 21). -/
def Obligations.OnlyARunningMachineSteps : Prop :=
  ∀ s : State, (∃ t, step s = .next t) ↔ s.run = .running

/-- A step leaves the machine Running, or ends the run in one of three ways (R85): Halted by a TRAP x25 word, Faulted by an
illegal word with the record of R161 (D16, log 17), Cancelled by the host where it may interrupt (R168; D17, log 19). -/
def Obligations.ARunEndsInExactlyThreeWays : Prop :=
  ∀ s t : State, step s = .next t →
    t.run = .running ∨
    (t.run = .halted ∧ s.pending = none ∧ opcodeOf (fetch s).1 = 0b1111#4 ∧ (fetch s).1.toNat % 256 = 0x25) ∨
    (t.run = .faulted { reason := reasonFor (fetch s).1, instr := (fetch s).1, pc := s.pc + 1#16 } ∧
      s.pending = none ∧ Illegal (fetch s).1) ∨
    (t.run = .cancelled ∧ s.interruptIn = some 0 ∧
      (s.pending = none ∨ s.pending = some .getc ∨ s.pending = some .inp))

/-! ## Invariants, reset and boot -/

/-- Every step keeps the invariant: memory canonical, COND one-hot (R26), device addresses apart (R42), no service left to
complete once the run has ended. -/
def Obligations.EveryStepKeepsTheInvariant : Prop :=
  ∀ s t : State, Inv s → step s = .next t → Inv t

/-- The reset machine meets the invariant. -/
def Obligations.ResetMeetsTheInvariant : Prop := Inv State.reset

/-- Whatever images are loaded, every state a run reaches from boot meets the invariant; in particular COND is one-hot from
the start of execution on (R26). Boot fixes what the spec leaves to the host: a silent host (log 10) that never
interrupts (log 19), and the default device addresses (log 4). -/
def Obligations.EveryRunFromBootKeepsTheInvariant : Prop :=
  ∀ images s t, boot images = .ok s → Reaches s t → Inv t

/-- The reset machine (R180, R184): registers and memory zero, COND = Z, PC = 0x3000, Running. -/
def Obligations.ResetIsTheStartOfExecution : Prop :=
  (∀ r, State.reset.reg r = 0#16) ∧ (∀ a, State.reset.word a = 0#16) ∧ State.reset.cond = flagZ ∧
    State.reset.pc = 0x3000#16 ∧ State.reset.run = .running

/-- Start (R184): after every image has loaded COND is Z, the PC is 0x3000 whatever the origins, the run state is Running,
and the first step fetches M[0x3000]; the registers keep the zeros of the clear (R181). -/
def Obligations.ExecutionStartsAt3000WithZ : Prop :=
  ∀ images s, boot images = .ok s →
    s.cond = flagZ ∧ s.pc = 0x3000#16 ∧ s.run = .running ∧ (∀ r, s.reg r = 0#16) ∧
      (fetch s).1 = s.word 0x3000#16

/-- An image's words are loaded at its origin, big-endian, contiguously (R182), and no other word is touched (R181). -/
def Obligations.ImageWordsAreLoadedAtTheOrigin : Prop :=
  ∀ (mem : Memory) (b : List Byte) (k : Nat), mem.wf = true → b.length = 2 + 2 * k → 1 ≤ k →
    (b.getD 0 0#8).toNat * 256 + (b.getD 1 0#8).toNat + k ≤ 65536 →
    ∃ mem', loadImage (some b) mem = .ok mem' ∧
      (∀ i < k, (mem'.get ((b.getD 0 0#8).toNat * 256 + (b.getD 1 0#8).toNat + i)).toNat =
        (b.getD (2 + 2 * i) 0#8).toNat * 256 + (b.getD (3 + 2 * i) 0#8).toNat) ∧
      (∀ j, (∀ i < k, j ≠ (b.getD 0 0#8).toNat * 256 + (b.getD 1 0#8).toNat + i) → mem'.get j = mem.get j)

/-- When an image fails to load (R183; the last condition is the spec's decision D18, log 23), and that a set of images
starts a run exactly when every one of them loads. That no image at all starts one too is the model's choice (log 23):
by R186 the host then starts no run. -/
def Obligations.LoadFailuresAreExactlyThese : Prop :=
  (∀ (image : Option (List Byte)) (mem : Memory), (∃ e, loadImage image mem = .error e) ↔
    image = none ∨ ∃ b, image = some b ∧ (b.length % 2 = 1 ∨ b.length < 4 ∨
      (b.getD 0 0#8).toNat * 256 + (b.getD 1 0#8).toNat + (b.length / 2 - 1) > 65536)) ∧
  (∀ images, (∃ s, boot images = .ok s) ↔ ∀ image ∈ images, ∃ m, loadImage image [] = .ok m)

/-- The images are loaded in order, the later one over the earlier (R181): one more image writes its words over the
memory the others left, and changes nothing else. -/
def Obligations.ALaterImageIsLoadedOverTheEarlier : Prop :=
  ∀ images image s, boot images = .ok s →
    (∀ m, loadImage image s.mem = .ok m → boot (images ++ [image]) = .ok (s.setMem m)) ∧
    (∀ e, loadImage image s.mem = .error e → boot (images ++ [image]) = .error e)

/-! ## Notation: sign extension, flags, addresses -/

/-- `sext_N` and `zext_N` as bits and as numbers (R11); a character code is widened by `zext_8`. -/
def Obligations.SextWidensTwosComplement : Prop :=
  (∀ (n : Nat) (v : BitVec n), 1 ≤ n → n ≤ 16 →
    (∀ i < 16, (sext v).getLsbD i = if i < n then v.getLsbD i else v.getLsbD (n - 1)) ∧
    (sext v).toNat = if v.toNat < 2 ^ (n - 1) then v.toNat else v.toNat + 2 ^ 16 - 2 ^ n) ∧
  (∀ (n : Nat) (v : BitVec n), 1 ≤ n → n ≤ 16 →
    (∀ i < 16, (zext v).getLsbD i = if i < n then v.getLsbD i else false) ∧ (zext v).toNat = v.toNat) ∧
  (∀ c : Byte, zext8 c = zext c)

/-- `setcc` puts exactly one flag in COND, the one the word calls for, and changes nothing else (R10). -/
def Obligations.SetccChoosesTheFlagOfTheWord : Prop :=
  ∀ (v : Word) (s : State), FlagFor v (setcc v s).cond ∧ oneHot (setcc v s).cond = true ∧
    SameRegsBut [] s (setcc v s) ∧ SameMemBut [] s (setcc v s) ∧ (setcc v s).pc = s.pc ∧
    SameHost s (setcc v s) ∧ SameRun s (setcc v s)

/-- The addressing forms add an unscaled two's-complement offset modulo 2^16 (R63, R117), to the PC after the fetch
increment (R82) or to a base register. -/
def Obligations.AddressesAddSignedOffsetsModulo65536 : Prop :=
  ∀ s : State, (∀ off, pcRel9 off s = addSigned s.pc off) ∧ (∀ off, pcRel11 off s = addSigned s.pc off) ∧
    (∀ base off, baseOff6 base off s = addSigned (s.reg base) off)

/-! ## Memory and the keyboard -/

/-- `MemWrite` (R45): the word is stored, at every address, device addresses included, with no other effect. -/
def Obligations.MemWriteStoresAndDoesNothingElse : Prop :=
  ∀ (s : State) (a v : Word), s.mem.wf = true →
    (memWrite a v s).word a = v ∧ SameMemBut [a] s (memWrite a v s) ∧ (memWrite a v s).mem.wf = true ∧
      SameRegsBut [] s (memWrite a v s) ∧ (memWrite a v s).cond = s.cond ∧ (memWrite a v s).pc = s.pc ∧
      SameHost s (memWrite a v s) ∧ SameRun s (memWrite a v s)

/-- `MemRead` of any address but KBSR's, KBDR's among them, returns the stored word and changes nothing (R43). -/
def Obligations.OrdinaryReadsChangeNothing : Prop :=
  ∀ (s : State) (a : Word), a ≠ s.params.kbsrAddr → memRead a s = (s.word a, s)

/-- A read of KBSR polls the host first and returns what the poll left there (R44; the values are the spec's decisions D8,
D9 and D10, log 8, log 9): a key gives 0x8000 and the code in KBDR and is consumed; no key clears both; after the end
of input what the poll finds is the open parameter (log 11). A word a program
wrote to KBSR is gone before the read returns, one it wrote to KBDR is read back (the spec's inference in R45). -/
def Obligations.AReadOfKbsrPollsTheKeyboard : Prop :=
  ∀ s : State, s.mem.wf = true → s.params.kbsrAddr ≠ s.params.kbdrAddr →
    let r := memRead s.params.kbsrAddr s
    (∀ c h', PollFinds s c h' → r.1 = 0x8000#16 ∧ r.2.word s.params.kbdrAddr = c ∧ r.2.hostIn = h') ∧
    (∀ h', PollFindsNothing s h' → r.1 = 0#16 ∧ r.2.word s.params.kbdrAddr = 0#16 ∧ r.2.hostIn = h') ∧
    (r.1 = 0x8000#16 ∨ r.1 = 0#16) ∧ r.2.word s.params.kbsrAddr = r.1 ∧
    SameMemBut [s.params.kbsrAddr, s.params.kbdrAddr] s r.2 ∧
    SameRegsBut [] s r.2 ∧ r.2.cond = s.cond ∧ r.2.pc = s.pc ∧ SameRun s r.2 ∧
    r.2.eofDraws = s.eofDraws ∧ r.2.interruptIn = s.interruptIn ∧
    ∀ v, memRead s.params.kbsrAddr (memWrite s.params.kbsrAddr v s) = r ∧
      (memRead s.params.kbdrAddr (memWrite s.params.kbdrAddr v s)).1 = v

/-- A store is seen by the fetch of the very next instruction, with no action (R55): `ST SR, #0` stores SR over the next
word, and the next step runs what was stored. -/
def Obligations.AStoreIsSeenByTheNextFetch : Prop :=
  ∀ (s : State) (sr : RegIx) (j : Instr), Ready s → s.mem.wf = true → s.interruptIn = none →
    s.pc ≠ s.params.kbsrAddr → s.pc + 1#16 ≠ s.params.kbsrAddr →
    s.word s.pc = encode (.st sr 0#9) → j.wf = true → s.reg sr = encode j →
    ∃ t, step s = .next t ∧ t.pc = s.pc + 1#16 ∧ step t = exec j (t.setPc (s.pc + 2#16))

/-! ## Operate -/

/-- ADD, both forms (R90, R91): the sum modulo 2^16 in DR, the flag of the sum in COND, nothing else. -/
def Obligations.AddWritesTheSumAndItsFlag : Prop :=
  ∀ (s : State) (dr sr1 : RegIx),
    (∀ (sr2 : RegIx) (ign : BitVec 2), ∃ t, exec (.addReg dr sr1 sr2 ign) s = .next t ∧
      (t.reg dr).toNat = ((s.reg sr1).toNat + (s.reg sr2).toNat) % 65536 ∧ FlagFor (t.reg dr) t.cond ∧
      SameRegsBut [dr] s t ∧ SameMemBut [] s t ∧ t.pc = s.pc ∧ SameHost s t ∧ SameRun s t) ∧
    (∀ imm5 : BitVec 5, ∃ t, exec (.addImm dr sr1 imm5) s = .next t ∧
      t.reg dr = addSigned (s.reg sr1) imm5 ∧ FlagFor (t.reg dr) t.cond ∧
      SameRegsBut [dr] s t ∧ SameMemBut [] s t ∧ t.pc = s.pc ∧ SameHost s t ∧ SameRun s t)

/-- AND, both forms (R92, R93): the bitwise AND in DR, its flag in COND, nothing else; imm5's sign bit stands for the bits
above it. -/
def Obligations.AndWritesTheBitwiseAndAndItsFlag : Prop :=
  ∀ (s : State) (dr sr1 : RegIx),
    (∀ (sr2 : RegIx) (ign : BitVec 2), ∃ t, exec (.andReg dr sr1 sr2 ign) s = .next t ∧
      (∀ k, (t.reg dr).getLsbD k = ((s.reg sr1).getLsbD k && (s.reg sr2).getLsbD k)) ∧
      FlagFor (t.reg dr) t.cond ∧
      SameRegsBut [dr] s t ∧ SameMemBut [] s t ∧ t.pc = s.pc ∧ SameHost s t ∧ SameRun s t) ∧
    (∀ imm5 : BitVec 5, ∃ t, exec (.andImm dr sr1 imm5) s = .next t ∧
      (∀ k, (t.reg dr).getLsbD k =
        ((s.reg sr1).getLsbD k && if k < 5 then imm5.getLsbD k else imm5.getLsbD 4)) ∧
      FlagFor (t.reg dr) t.cond ∧
      SameRegsBut [dr] s t ∧ SameMemBut [] s t ∧ t.pc = s.pc ∧ SameHost s t ∧ SameRun s t)

/-- NOT (R94): the complement of 16 bits in DR, 0xFFFF minus the source, its flag in COND, nothing else. -/
def Obligations.NotWritesTheComplementAndItsFlag : Prop :=
  ∀ (s : State) (dr sr : RegIx) (ign : BitVec 6), ∃ t, exec (.not dr sr ign) s = .next t ∧
    (t.reg dr).toNat = 0xFFFF - (s.reg sr).toNat ∧ FlagFor (t.reg dr) t.cond ∧
    SameRegsBut [dr] s t ∧ SameMemBut [] s t ∧ t.pc = s.pc ∧ SameHost s t ∧ SameRun s t

/-! ## Control -/

/-- BR (R100): taken exactly where a condition bit that is 1 matches COND; the target is the incremented PC plus the
signed offset; nothing but the PC changes. Condition bits 000 never branch, 111 always do while COND is one-hot. -/
def Obligations.BrBranchesOnAMatchingFlag : Prop :=
  ∀ (s : State) (n z p : Bool) (off : BitVec 9), ∃ t, exec (.br n z p off) s = .next t ∧
    ((n = true ∧ s.cond = flagN ∨ z = true ∧ s.cond = flagZ ∨ p = true ∧ s.cond = flagP) →
      t.pc = addSigned s.pc off) ∧
    (¬ (n = true ∧ s.cond = flagN ∨ z = true ∧ s.cond = flagZ ∨ p = true ∧ s.cond = flagP) → t.pc = s.pc) ∧
    (n = false → z = false → p = false → t.pc = s.pc) ∧
    (n = true → z = true → p = true → oneHot s.cond = true → t.pc = addSigned s.pc off) ∧
    SameRegsBut [] s t ∧ t.cond = s.cond ∧ SameMemBut [] s t ∧ SameHost s t ∧ SameRun s t

/-- JMP and RET (R101): the PC is the base register's word, R7's for RET; no register is written, R7 included. -/
def Obligations.JmpAndRetLoadThePc : Prop :=
  ∀ (s : State) (ignHi : BitVec 3) (ignLo : BitVec 6),
    (∀ base, ∃ t, exec (.jmp base ignHi ignLo) s = .next t ∧ t.pc = s.reg base ∧
      SameRegsBut [] s t ∧ t.cond = s.cond ∧ SameMemBut [] s t ∧ SameHost s t ∧ SameRun s t) ∧
    (∃ t, exec (.ret ignHi ignLo) s = .next t ∧ t.pc = s.reg 7#3 ∧
      SameRegsBut [] s t ∧ t.cond = s.cond ∧ SameMemBut [] s t ∧ SameHost s t ∧ SameRun s t)

/-- JSR (R102): R7 is the address of the next instruction, the PC that address plus the signed offset; COND unchanged. -/
def Obligations.JsrLinksAndJumps : Prop :=
  ∀ (s : State) (off : BitVec 11), ∃ t, exec (.jsr off) s = .next t ∧
    t.reg 7#3 = s.pc ∧ t.pc = addSigned s.pc off ∧
    SameRegsBut [7#3] s t ∧ t.cond = s.cond ∧ SameMemBut [] s t ∧ SameHost s t ∧ SameRun s t

/-- JSRR (R103): R7 is the address of the next instruction, then the PC is the base register read after that write, so
JSRR R7 goes on at the next instruction; COND unchanged. -/
def Obligations.JsrrLinksBeforeReadingItsBase : Prop :=
  ∀ (s : State) (base : RegIx) (ignHi : BitVec 2) (ignLo : BitVec 6),
    ∃ t, exec (.jsrr base ignHi ignLo) s = .next t ∧
      t.reg 7#3 = s.pc ∧ (base = 7#3 → t.pc = s.pc) ∧ (base ≠ 7#3 → t.pc = s.reg base) ∧
      SameRegsBut [7#3] s t ∧ t.cond = s.cond ∧ SameMemBut [] s t ∧ SameHost s t ∧ SameRun s t

/-! ## Loads, LEA, stores -/

/-- LD (R110): DR is the word `MemRead` gives at the PC-relative address, COND its flag; memory and the host's input are as
that read leaves them (unchanged but for a read of KBSR), nothing else changes. -/
def Obligations.LdLoadsThePcRelativeWord : Prop :=
  ∀ (s : State) (dr : RegIx) (off : BitVec 9),
    let r := memRead (pcRel9 off s) s
    ∃ t, exec (.ld dr off) s = .next t ∧ t.reg dr = r.1 ∧ FlagFor r.1 t.cond ∧
      SameRegsBut [dr] s t ∧ SameMemBut [] r.2 t ∧ SameHost r.2 t ∧ t.pc = s.pc ∧ SameRun s t ∧
      (pcRel9 off s ≠ s.params.kbsrAddr → t.reg dr = s.word (pcRel9 off s) ∧ SameMemBut [] s t ∧ SameHost s t)

/-- LDI (R111): two separate `MemRead`s, the pointer at the PC-relative address, then the word it points to, which goes to
DR and sets COND. -/
def Obligations.LdiLoadsThroughThePointer : Prop :=
  ∀ (s : State) (dr : RegIx) (off : BitVec 9),
    let p := memRead (pcRel9 off s) s
    let r := memRead p.1 p.2
    ∃ t, exec (.ldi dr off) s = .next t ∧ t.reg dr = r.1 ∧ FlagFor r.1 t.cond ∧
      SameRegsBut [dr] s t ∧ SameMemBut [] r.2 t ∧ SameHost r.2 t ∧ t.pc = s.pc ∧ SameRun s t ∧
      (pcRel9 off s ≠ s.params.kbsrAddr → s.word (pcRel9 off s) ≠ s.params.kbsrAddr →
        t.reg dr = s.word (s.word (pcRel9 off s)) ∧ SameMemBut [] s t ∧ SameHost s t)

/-- LDR (R112): DR is the word `MemRead` gives at the base register plus the signed offset, the address formed before DR is
written. -/
def Obligations.LdrLoadsTheBasePlusOffsetWord : Prop :=
  ∀ (s : State) (dr base : RegIx) (off : BitVec 6),
    let r := memRead (baseOff6 base off s) s
    ∃ t, exec (.ldr dr base off) s = .next t ∧ t.reg dr = r.1 ∧ FlagFor r.1 t.cond ∧
      SameRegsBut [dr] s t ∧ SameMemBut [] r.2 t ∧ SameHost r.2 t ∧ t.pc = s.pc ∧ SameRun s t ∧
      (baseOff6 base off s ≠ s.params.kbsrAddr →
        t.reg dr = s.word (baseOff6 base off s) ∧ SameMemBut [] s t ∧ SameHost s t)

/-- LEA (R113): DR is the address itself, COND its flag; no memory is read, so no poll is made. -/
def Obligations.LeaLoadsTheAddress : Prop :=
  ∀ (s : State) (dr : RegIx) (off : BitVec 9), ∃ t, exec (.lea dr off) s = .next t ∧
    t.reg dr = addSigned s.pc off ∧ FlagFor (t.reg dr) t.cond ∧
    SameRegsBut [dr] s t ∧ SameMemBut [] s t ∧ t.pc = s.pc ∧ SameHost s t ∧ SameRun s t

/-- ST (R114): the word of SR at the PC-relative address; every other word, every register and COND as before. -/
def Obligations.StStoresAtThePcRelativeAddress : Prop :=
  ∀ (s : State) (sr : RegIx) (off : BitVec 9), s.mem.wf = true → ∃ t, exec (.st sr off) s = .next t ∧
    t.word (pcRel9 off s) = s.reg sr ∧ SameMemBut [pcRel9 off s] s t ∧
    SameRegsBut [] s t ∧ t.cond = s.cond ∧ t.pc = s.pc ∧ SameHost s t ∧ SameRun s t

/-- STI (R115): the pointer is read by a `MemRead` at the PC-relative address, and SR's word is stored where it points;
every other word is as that read leaves it. -/
def Obligations.StiStoresThroughThePointer : Prop :=
  ∀ (s : State) (sr : RegIx) (off : BitVec 9), s.mem.wf = true →
    let p := memRead (pcRel9 off s) s
    ∃ t, exec (.sti sr off) s = .next t ∧ t.word p.1 = s.reg sr ∧ SameMemBut [p.1] p.2 t ∧
      SameRegsBut [] s t ∧ t.cond = s.cond ∧ t.pc = s.pc ∧ SameHost p.2 t ∧ SameRun s t ∧
      (pcRel9 off s ≠ s.params.kbsrAddr →
        t.word (s.word (pcRel9 off s)) = s.reg sr ∧ SameMemBut [s.word (pcRel9 off s)] s t ∧ SameHost s t)

/-- STR (R116): the word of SR at the base register plus the signed offset; SR may be the base register. -/
def Obligations.StrStoresAtBasePlusOffset : Prop :=
  ∀ (s : State) (sr base : RegIx) (off : BitVec 6), s.mem.wf = true → ∃ t, exec (.str sr base off) s = .next t ∧
    t.word (baseOff6 base off s) = s.reg sr ∧ SameMemBut [baseOff6 base off s] s t ∧
    SameRegsBut [] s t ∧ t.cond = s.cond ∧ t.pc = s.pc ∧ SameHost s t ∧ SameRun s t

/-! ## The trap services -/

/-- TRAP dispatches on its vector (R130, Table 44-1; the numbers 0x20 to 0x24 are D3's, log 3): the six services, each also
written as its own instruction, and for any other vector the fault of R137, with nothing else changed. The decoder gives
a service's word as the service and not as a trap term (log 26); the fault record is D16's (log 17). -/
def Obligations.TrapDispatchesOnItsVector : Prop :=
  ∀ (s : State) (ign : BitVec 4),
    exec (.trap ign 0x20#8) s = exec (.getc ign) s ∧ exec (.trap ign 0x21#8) s = exec (.out ign) s ∧
    exec (.trap ign 0x22#8) s = exec (.puts ign) s ∧ exec (.trap ign 0x23#8) s = exec (.inp ign) s ∧
    exec (.trap ign 0x24#8) s = exec (.putsp ign) s ∧ exec (.trap ign 0x25#8) s = exec (.halt ign) s ∧
    ∀ vect : BitVec 8, vect.toNat < 0x20 ∨ 0x25 < vect.toNat → ∃ t, exec (.trap ign vect) s = .next t ∧
      t.run = .faulted { reason := .unsupportedTrap vect, instr := encode (.trap ign vect), pc := s.pc } ∧
      t.pc = s.pc ∧ SameRegsBut [] s t ∧ t.cond = s.cond ∧ SameMemBut [] s t ∧ SameHost s t ∧
      t.pending = s.pending ∧ t.params = s.params ∧ t.out = s.out

/-- GETC (R131; the zero extension and the flags are the spec's decisions D10 and D11, log 8, log 12): the next byte of the
stream goes to R0, zero-extended, is consumed, and sets COND; no echo, no device cell, no link register. -/
def Obligations.GetcDeliversTheNextByte : Prop :=
  ∀ (s : State) (ign : BitVec 4) (c : Byte) (rest : HostInput), s.hostIn = .byte c rest →
    ∃ t, exec (.getc ign) s = .next t ∧ (t.reg 0#3).toNat = c.toNat ∧
      t.cond = (if c.toNat = 0 then flagZ else flagP) ∧ t.hostIn = rest ∧ t.out = s.out ∧ t.pending = none ∧
      SameRegsBut [0#3] s t ∧ SameMemBut [] s t ∧ t.pc = s.pc ∧ t.run = s.run ∧ t.params = s.params ∧
      t.eofDraws = s.eofDraws ∧ t.interruptIn = s.interruptIn

/-- IN (R134; decisions D10, D11, D15, log 8, log 12, log 16): the prompt, then the next byte of the stream, echoed, in R0
and setting COND. -/
def Obligations.InPromptsEchoesAndDelivers : Prop :=
  ∀ (s : State) (ign : BitVec 4) (c : Byte) (rest : HostInput), s.hostIn = .byte c rest →
    ∃ t, exec (.inp ign) s = .next t ∧ (t.reg 0#3).toNat = c.toNat ∧
      t.cond = (if c.toNat = 0 then flagZ else flagP) ∧ t.hostIn = rest ∧
      t.out = s.out ++ s.params.inPrompt ++ [c] ∧ t.pending = none ∧
      SameRegsBut [0#3] s t ∧ SameMemBut [] s t ∧ t.pc = s.pc ∧ t.run = s.run ∧ t.params = s.params ∧
      t.eofDraws = s.eofDraws ∧ t.interruptIn = s.interruptIn

/-- After the end of host input GETC and IN still complete, with `HOST_EOF` in R0, whatever that free value is (R138, D10
OPEN, log 11), and its flag in COND (D11, log 12). -/
def Obligations.EndOfInputDeliversHostEof : Prop :=
  ∀ (s : State) (ign : BitVec 4), s.hostIn = .ended →
    (∃ t, exec (.getc ign) s = .next t ∧ t.reg 0#3 = Config.hostEofChar s.eofDraws ∧
      FlagFor (t.reg 0#3) t.cond ∧ t.hostIn = .ended ∧ t.pending = none ∧ t.out = s.out ∧
      SameRegsBut [0#3] s t ∧ SameMemBut [] s t ∧ t.pc = s.pc ∧ t.run = s.run) ∧
    (∃ t, exec (.inp ign) s = .next t ∧ t.reg 0#3 = Config.hostEofChar s.eofDraws ∧
      FlagFor (t.reg 0#3) t.cond ∧ t.hostIn = .ended ∧ t.pending = none ∧
      (∃ echo, t.out = s.out ++ s.params.inPrompt ++ [echo]) ∧
      SameRegsBut [0#3] s t ∧ SameMemBut [] s t ∧ t.pc = s.pc ∧ t.run = s.run)

/-- Where the host supplies no byte GETC and IN wait (R138; the wait as a next state is the model's form, log 20):
no register, flag or memory word is written; IN has written its prompt and no echo (R168). -/
def Obligations.WithoutACharacterGetcAndInWait : Prop :=
  ∀ (s : State) (ign : BitVec 4), s.hostIn = .silent ∨ (∃ rest, s.hostIn = .later rest) →
    (∃ t, exec (.getc ign) s = .next t ∧ t.pending = some .getc ∧ t.out = s.out ∧
      SameRegsBut [] s t ∧ t.cond = s.cond ∧ SameMemBut [] s t ∧ t.pc = s.pc ∧ t.run = s.run) ∧
    (∃ t, exec (.inp ign) s = .next t ∧ t.pending = some .inp ∧ t.out = s.out ++ s.params.inPrompt ∧
      SameRegsBut [] s t ∧ t.cond = s.cond ∧ SameMemBut [] s t ∧ t.pc = s.pc ∧ t.run = s.run)

/-- In the wait of GETC or IN no other instruction runs (R138; the wait as steps of the model is log 20): a step that the
host does not interrupt fetches nothing and leaves the PC, the memory and every register but R0; a silent host is a hang.
The wait ends as GETC and IN do (R131, R134): with the next byte, zero-extended (D10, log 8), in R0, COND set from it
(D11, log 12), echoed by IN; or, at the end of input, with the free value `HOST_EOF` (log 11). The host's countdown to
an interruption goes down by one (log 19). -/
def Obligations.AWaitRunsNoOtherInstruction : Prop :=
  ∀ (s : State) (p : Pending), s.run = .running → s.interruptIn ≠ some 0 → (p = .getc ∨ p = .inp) →
    s.pending = some p →
    (s.hostIn = .silent → step s = .next (s.setInterruptIn (s.interruptIn.map (· - 1)))) ∧
    (∀ rest, s.hostIn = .later rest →
      step s = .next ((s.setInterruptIn (s.interruptIn.map (· - 1))).setHostIn rest)) ∧
    (∀ c rest, s.hostIn = .byte c rest → ∃ t, step s = .next t ∧ t.pending = none ∧ t.run = .running ∧
      (t.reg 0#3).toNat = c.toNat ∧ t.cond = (if c.toNat = 0 then flagZ else flagP) ∧ t.hostIn = rest ∧
      t.out = s.out ++ (if p = .inp then [c] else []) ∧ t.interruptIn = s.interruptIn.map (· - 1) ∧
      SameRegsBut [0#3] s t ∧ SameMemBut [] s t ∧ t.pc = s.pc ∧ t.params = s.params ∧ t.eofDraws = s.eofDraws) ∧
    (s.hostIn = .ended → ∃ t, step s = .next t ∧ t.pending = none ∧ t.run = .running ∧
      t.reg 0#3 = Config.hostEofChar s.eofDraws ∧ FlagFor (t.reg 0#3) t.cond ∧ t.hostIn = .ended ∧
      (∃ echo, t.out = s.out ++ (if p = .inp then [echo] else [])) ∧ t.interruptIn = s.interruptIn.map (· - 1) ∧
      SameRegsBut [0#3] s t ∧ SameMemBut [] s t ∧ t.pc = s.pc ∧ t.params = s.params)

/-- OUT (R132): the low byte of R0 is appended to the output; nothing else changes, R7 and COND included. -/
def Obligations.OutWritesTheLowByteOfR0 : Prop :=
  ∀ (s : State) (ign : BitVec 4), ∃ t, exec (.out ign) s = .next t ∧
    (∃ b : Byte, b.toNat = (s.reg 0#3).toNat % 256 ∧ t.out = s.out ++ [b]) ∧
    SameRegsBut [] s t ∧ t.cond = s.cond ∧ SameMemBut [] s t ∧ t.pc = s.pc ∧ SameHost s t ∧
    t.run = s.run ∧ t.pending = s.pending ∧ t.params = s.params

/-- PUTS and PUTSP (R133, R135; the reads, the low byte and the wrap are the spec's decision D14, log 15): from the address
in R0 the characters of each word up to a zero word are appended to the output, in order, in one step however long the
string is (R13); memory and the host's input are as the reads leave them; R0, R7 and COND are unchanged. -/
def Obligations.StringServicesWriteTheString : Prop :=
  ∀ (s s' : State) (ign : BitVec 4) (n : Nat) (bs : List Byte), s.mem.wf = true →
    (StringRead putsText (s.reg 0#3) s n bs s' → ∃ t, exec (.puts ign) s = .next t ∧
      t.out = s.out ++ bs ∧ t.pending = s.pending ∧ SameRegsBut [] s t ∧ t.cond = s.cond ∧ SameMemBut [] s' t ∧
      t.pc = s.pc ∧ SameHost s' t ∧ t.run = s.run ∧ t.params = s.params) ∧
    (StringRead putspText (s.reg 0#3) s n bs s' → ∃ t, exec (.putsp ign) s = .next t ∧
      t.out = s.out ++ bs ∧ t.pending = s.pending ∧ SameRegsBut [] s t ∧ t.cond = s.cond ∧ SameMemBut [] s' t ∧
      t.pc = s.pc ∧ SameHost s' t ∧ t.run = s.run ∧ t.params = s.params)

/-- PUTS and PUTSP always answer a next state, and whatever the string they write no register, not COND, not the PC, and no
word of memory but the two device cells (R22, R27, R44). That they read through the device decoder is D14 (log 15); that
there is a next state where the string never ends is the model's choice (R133, log 21). -/
def Obligations.StringServicesChangeOnlyOutputAndDeviceCells : Prop :=
  ∀ (s : State) (ign : BitVec 4) (i : Instr), i = .puts ign ∨ i = .putsp ign →
    ∃ t, exec i s = .next t ∧ (∃ bs, t.out = s.out ++ bs) ∧ SameRegsBut [] s t ∧ t.cond = s.cond ∧
      SameMemBut [s.params.kbsrAddr, s.params.kbdrAddr] s t ∧ t.pc = s.pc ∧ t.run = s.run ∧
      t.params = s.params ∧ t.interruptIn = s.interruptIn

/-- A PUTS or PUTSP that meets no zero word never ends (R133; D14, log 15). The model's form of it is log 21: the step does
not complete, so the CORE's state shows nothing of it (R13), the run stays Running, and the output grows by the characters
of the words in order, without end; the host does not interrupt there (R164). -/
def Obligations.AnUnendedStringServiceGoesOn : Prop :=
  (∀ (s : State) (ign : BitVec 4) (i : Instr) (chars : Word → List Byte), s.mem.wf = true →
    (i = .puts ign ∧ chars = putsText ∨ i = .putsp ign ∧ chars = putspText) →
    (¬ ∃ n bs s', StringRead chars (s.reg 0#3) s n bs s') →
    ∃ bs round, exec i s = .next ((s.setOut (s.out ++ bs)).setPending (some (.endless round))) ∧
      ∀ k, ∃ n ≥ k, StringOn chars (s.reg 0#3) s n (bs ++ (List.replicate k round).flatten)) ∧
  (∀ (s : State) (round : List Byte), s.run = .running → s.pending = some (.endless round) →
    step s = .next (s.setOut (s.out ++ round)))

/-- HALT (R136): the halt notice is appended to the output and the run state is Halted; no register, no memory word and not
COND changes, and the PC keeps the fetch increment. The run has ended: no step follows. -/
def Obligations.HaltWritesTheNoticeAndHalts : Prop :=
  ∀ (s : State) (ign : BitVec 4), ∃ t, exec (.halt ign) s = .next t ∧
    t.out = s.out ++ s.params.haltNotice ∧ t.run = .halted ∧
    SameRegsBut [] s t ∧ t.cond = s.cond ∧ SameMemBut [] s t ∧ t.pc = s.pc ∧ SameHost s t ∧
    t.pending = s.pending ∧ t.params = s.params ∧ ∀ u, step t ≠ .next u

/-! ## Faults and the host's interruption -/

/-- RTI and opcode 1101 (R150, R151), whatever their low bits: the run state is Faulted with ReservedOpcode and the whole
word in the record; nothing else changes. The record and the state kept after the fault are the spec's own model (R161,
D16, log 17). -/
def Obligations.ReservedOpcodesFault : Prop :=
  ∀ (s : State) (ign : BitVec 12),
    (∃ t, exec (.rti ign) s = .next t ∧
      t.run = .faulted { reason := .reservedOpcode 0b1000#4, instr := encode (.rti ign), pc := s.pc } ∧
      (encode (.rti ign)).toNat = 0x8000 + ign.toNat ∧
      SameRegsBut [] s t ∧ t.cond = s.cond ∧ SameMemBut [] s t ∧ t.pc = s.pc ∧ SameHost s t ∧
      t.pending = s.pending ∧ t.params = s.params ∧ t.out = s.out) ∧
    (∃ t, exec (.reserved ign) s = .next t ∧
      t.run = .faulted { reason := .reservedOpcode 0b1101#4, instr := encode (.reserved ign), pc := s.pc } ∧
      (encode (.reserved ign)).toNat = 0xD000 + ign.toNat ∧
      SameRegsBut [] s t ∧ t.cond = s.cond ∧ SameMemBut [] s t ∧ t.pc = s.pc ∧ SameHost s t ∧
      t.pending = s.pending ∧ t.params = s.params ∧ t.out = s.out)

/-- A fault is precise (R161, R83; the record is the spec's decision D16, log 17): an illegal word at the PC leaves its
reason, itself and the incremented PC in the record, and no effect but the fetch's: registers, COND, memory and
output as before. -/
def Obligations.AFaultIsPrecise : Prop :=
  ∀ s : State, Ready s → s.pc ≠ s.params.kbsrAddr → Illegal (s.word s.pc) → ∃ t, step s = .next t ∧
    t.run = .faulted { reason := reasonFor (s.word s.pc), instr := s.word s.pc, pc := s.pc + 1#16 } ∧
    t.pc = s.pc + 1#16 ∧ SameRegsBut [] s t ∧ t.cond = s.cond ∧ SameMemBut [] s t ∧ t.out = s.out ∧
    t.hostIn = s.hostIn ∧ t.params = s.params

/-- A host interruption (R168, D17, log 19) between two steps or in the wait of GETC or IN leaves the machine Cancelled with
every register, COND, PC, memory word and output byte as before. That the wait is then over is the model's choice
(log 28). -/
def Obligations.AHostInterruptionCancelsTheRun : Prop :=
  ∀ s : State, s.run = .running → s.interruptIn = some 0 →
    (s.pending = none ∨ s.pending = some .getc ∨ s.pending = some .inp) → ∃ t, step s = .next t ∧
      t.run = .cancelled ∧ t.pending = none ∧ SameRegsBut [] s t ∧ t.cond = s.cond ∧ t.pc = s.pc ∧
      SameMemBut [] s t ∧ t.out = s.out ∧ t.hostIn = s.hostIn ∧ t.params = s.params

/-! ## Rules of the whole machine -/

/-- The general registers are written only as Table 10-1 says (R22); GETC and IN, the services written as TRAP among them,
write R0 (R23). -/
def Obligations.RegistersAreWrittenOnlyByTheirWriters : Prop :=
  ∀ (i : Instr) (s t : State), exec i s = .next t → SameRegsBut (writtenRegs i) s t

/-- COND is written only by the callers of `setcc` (R27, decision D11 for GETC and IN, log 12), and then holds the flag of
the register they wrote; a GETC or IN that waits has not written it. -/
def Obligations.CondFollowsTheRegisterWritten : Prop :=
  ∀ (i : Instr) (s t : State), exec i s = .next t →
    (callsSetcc i = false → t.cond = s.cond) ∧
    (callsSetcc i = true → s.pending = none →
      (t.pending = none ∧ ∀ r ∈ writtenRegs i, FlagFor (t.reg r) t.cond) ∨
      (t.pending ≠ none ∧ t.cond = s.cond))

/-- COND is read only by BR (R28): another instruction does the same whatever COND holds, but for COND itself. -/
def Obligations.CondIsReadOnlyByBr : Prop :=
  ∀ (i : Instr) (s t : State) (c : Word), (∀ n z p off, i ≠ .br n z p off) → exec i s = .next t →
    ∃ t', exec i (s.setCond c) = .next t' ∧ t'.setCond 0#16 = t.setCond 0#16

/-- The PC changes only in these ways (R25): the fetch increments it modulo 2^16; a taken BR and JSR add their signed
offset; JMP, RET and JSRR load a register. No other instruction, service (one that goes on included), fault or end of the
run writes it. -/
def Obligations.ThePcChangesOnlyTheseWays : Prop :=
  (∀ s : State, (fetch s).2.pc.toNat = (s.pc.toNat + 1) % 65536) ∧
  (∀ s t : State, step s = .next t → s.pending ≠ none ∨ t.run = .cancelled → t.pc = s.pc) ∧
  ∀ (i : Instr) (s t : State), exec i s = .next t → t.pc =
    match i with
    | .br n z p off => if branchTaken n z p s.cond then addSigned s.pc off else s.pc
    | .jmp base _ _ => s.reg base
    | .ret _ _ => s.reg 7#3
    | .jsr off => addSigned s.pc off
    | .jsrr base _ _ => if base = 7#3 then s.pc else s.reg base
    | _ => s.pc

/-- Memory changes only where an instruction stores, and in the two device cells where it reads KBSR (Table 20-1, R44,
R49; that PUTS and PUTSP poll there is D14, log 15); an instruction that does not read KBSR changes no word but the one
it stores to. -/
def Obligations.MemoryChangesOnlyWhereStored : Prop :=
  ∀ (i : Instr) (s t : State) (a : Word), exec i s = .next t → storeAddress i s ≠ some a →
    (a ≠ s.params.kbsrAddr → a ≠ s.params.kbdrAddr → t.word a = s.word a) ∧
    (¬ ReadsKbsr i s → t.word a = s.word a)

/-- Output is only appended to (R139), and only by OUT, PUTS, PUTSP, IN and HALT (R169); no step changes a parameter (R7). -/
def Obligations.OutputOnlyGrowsAndOnlyByServices : Prop :=
  (∀ s t : State, step s = .next t → (∃ bs, t.out = s.out ++ bs) ∧ t.params = s.params) ∧
  (∀ (i : Instr) (s t : State), exec i s = .next t → writesOutput i = false → t.out = s.out)
end

