-- ==== Sys2Proof/Laws/Decode.lean ====
section
/-! SUPPORT. The small lemmas of the encoding, bit by bit: what a placed field and what a field of a word read. -/

namespace Sys2Proof

/-- A field placed at bit `lo` reads as itself there, as zeros below and above. -/
theorem place_getLsbD {n : Nat} (v : BitVec n) (lo i : Nat) :
    (place v lo).getLsbD i = (decide (i < 16) && (decide (lo ≤ i) && v.getLsbD (i - lo))) := by
  simp only [place, BitVec.getLsbD_shiftLeft, BitVec.getLsbD_setWidth]
  by_cases h : i < 16
  · by_cases h2 : lo ≤ i
    · simp [h, h2, show ¬ i < lo by omega, show i - lo < 16 by omega]
    · simp [h2, show i < lo by omega]
  · simp [h]

/-- The opcode's bits. -/
theorem opcodeOf_getLsbD (w : Word) (i : Nat) : (opcodeOf w).getLsbD i = (decide (i < 4) && w.getLsbD (12 + i)) := by
  simp [opcodeOf]

/-- Two words with the same bits in every field of an opcode and its low twelve bits are one word (R60). -/
theorem word_ext {w w' : Word} (h : opcodeOf w = opcodeOf w') (h' : field11to0 w = field11to0 w') : w = w' := by
  apply BitVec.eq_of_getLsbD_eq
  intro i hi
  by_cases hlt : i < 12
  · have := congrArg (fun v => v.getLsbD i) h'
    simpa [field11to0, hlt] using this
  · have := congrArg (fun v => v.getLsbD (i - 12)) h
    simpa [opcodeOf, show i - 12 < 4 by omega, show 12 + (i - 12) = i by omega] using this

end Sys2Proof
end

