-- ==== Sys2Proof/Laws/State.lean ====
section
/-! SUPPORT. One lemma for every field of State and every field update, so that no proof unfolds a record update; and
what a register read and a word read give after each update. -/

namespace Sys2Proof.Machine

/-! ## setPc -/

@[simp] theorem State.setPc_regs (s : State) (v : Word) : (s.setPc v).regs = s.regs := rfl
@[simp] theorem State.setPc_pc (s : State) (v : Word) : (s.setPc v).pc = v := rfl
@[simp] theorem State.setPc_cond (s : State) (v : Word) : (s.setPc v).cond = s.cond := rfl
@[simp] theorem State.setPc_mem (s : State) (v : Word) : (s.setPc v).mem = s.mem := rfl
@[simp] theorem State.setPc_run (s : State) (v : Word) : (s.setPc v).run = s.run := rfl
@[simp] theorem State.setPc_params (s : State) (v : Word) : (s.setPc v).params = s.params := rfl
@[simp] theorem State.setPc_hostIn (s : State) (v : Word) : (s.setPc v).hostIn = s.hostIn := rfl
@[simp] theorem State.setPc_eofDraws (s : State) (v : Word) : (s.setPc v).eofDraws = s.eofDraws := rfl
@[simp] theorem State.setPc_out (s : State) (v : Word) : (s.setPc v).out = s.out := rfl
@[simp] theorem State.setPc_interruptIn (s : State) (v : Word) : (s.setPc v).interruptIn = s.interruptIn := rfl
@[simp] theorem State.setPc_pending (s : State) (v : Word) : (s.setPc v).pending = s.pending := rfl
@[simp] theorem State.reg_setPc (s : State) (v : Word) (q : RegIx) : (s.setPc v).reg q = s.reg q := rfl
@[simp] theorem State.word_setPc (s : State) (v : Word) (a : Word) : (s.setPc v).word a = s.word a := rfl

/-! ## setReg -/

@[simp] theorem State.setReg_regs (s : State) (r : RegIx) (v : Word) : (s.setReg r v).regs = s.regs.set r.toNat v r.isLt := rfl
@[simp] theorem State.setReg_pc (s : State) (r : RegIx) (v : Word) : (s.setReg r v).pc = s.pc := rfl
@[simp] theorem State.setReg_cond (s : State) (r : RegIx) (v : Word) : (s.setReg r v).cond = s.cond := rfl
@[simp] theorem State.setReg_mem (s : State) (r : RegIx) (v : Word) : (s.setReg r v).mem = s.mem := rfl
@[simp] theorem State.setReg_run (s : State) (r : RegIx) (v : Word) : (s.setReg r v).run = s.run := rfl
@[simp] theorem State.setReg_params (s : State) (r : RegIx) (v : Word) : (s.setReg r v).params = s.params := rfl
@[simp] theorem State.setReg_hostIn (s : State) (r : RegIx) (v : Word) : (s.setReg r v).hostIn = s.hostIn := rfl
@[simp] theorem State.setReg_eofDraws (s : State) (r : RegIx) (v : Word) : (s.setReg r v).eofDraws = s.eofDraws := rfl
@[simp] theorem State.setReg_out (s : State) (r : RegIx) (v : Word) : (s.setReg r v).out = s.out := rfl
@[simp] theorem State.setReg_interruptIn (s : State) (r : RegIx) (v : Word) : (s.setReg r v).interruptIn = s.interruptIn := rfl
@[simp] theorem State.setReg_pending (s : State) (r : RegIx) (v : Word) : (s.setReg r v).pending = s.pending := rfl
@[simp] theorem State.word_setReg (s : State) (r : RegIx) (v : Word) (a : Word) : (s.setReg r v).word a = s.word a := rfl

/-! ## setCond -/

@[simp] theorem State.setCond_regs (s : State) (v : Word) : (s.setCond v).regs = s.regs := rfl
@[simp] theorem State.setCond_pc (s : State) (v : Word) : (s.setCond v).pc = s.pc := rfl
@[simp] theorem State.setCond_cond (s : State) (v : Word) : (s.setCond v).cond = v := rfl
@[simp] theorem State.setCond_mem (s : State) (v : Word) : (s.setCond v).mem = s.mem := rfl
@[simp] theorem State.setCond_run (s : State) (v : Word) : (s.setCond v).run = s.run := rfl
@[simp] theorem State.setCond_params (s : State) (v : Word) : (s.setCond v).params = s.params := rfl
@[simp] theorem State.setCond_hostIn (s : State) (v : Word) : (s.setCond v).hostIn = s.hostIn := rfl
@[simp] theorem State.setCond_eofDraws (s : State) (v : Word) : (s.setCond v).eofDraws = s.eofDraws := rfl
@[simp] theorem State.setCond_out (s : State) (v : Word) : (s.setCond v).out = s.out := rfl
@[simp] theorem State.setCond_interruptIn (s : State) (v : Word) : (s.setCond v).interruptIn = s.interruptIn := rfl
@[simp] theorem State.setCond_pending (s : State) (v : Word) : (s.setCond v).pending = s.pending := rfl
@[simp] theorem State.reg_setCond (s : State) (v : Word) (q : RegIx) : (s.setCond v).reg q = s.reg q := rfl
@[simp] theorem State.word_setCond (s : State) (v : Word) (a : Word) : (s.setCond v).word a = s.word a := rfl

/-! ## setMem -/

@[simp] theorem State.setMem_regs (s : State) (m : Memory) : (s.setMem m).regs = s.regs := rfl
@[simp] theorem State.setMem_pc (s : State) (m : Memory) : (s.setMem m).pc = s.pc := rfl
@[simp] theorem State.setMem_cond (s : State) (m : Memory) : (s.setMem m).cond = s.cond := rfl
@[simp] theorem State.setMem_mem (s : State) (m : Memory) : (s.setMem m).mem = m := rfl
@[simp] theorem State.setMem_run (s : State) (m : Memory) : (s.setMem m).run = s.run := rfl
@[simp] theorem State.setMem_params (s : State) (m : Memory) : (s.setMem m).params = s.params := rfl
@[simp] theorem State.setMem_hostIn (s : State) (m : Memory) : (s.setMem m).hostIn = s.hostIn := rfl
@[simp] theorem State.setMem_eofDraws (s : State) (m : Memory) : (s.setMem m).eofDraws = s.eofDraws := rfl
@[simp] theorem State.setMem_out (s : State) (m : Memory) : (s.setMem m).out = s.out := rfl
@[simp] theorem State.setMem_interruptIn (s : State) (m : Memory) : (s.setMem m).interruptIn = s.interruptIn := rfl
@[simp] theorem State.setMem_pending (s : State) (m : Memory) : (s.setMem m).pending = s.pending := rfl
@[simp] theorem State.reg_setMem (s : State) (m : Memory) (q : RegIx) : (s.setMem m).reg q = s.reg q := rfl

/-! ## setRun -/

@[simp] theorem State.setRun_regs (s : State) (r : RunState) : (s.setRun r).regs = s.regs := rfl
@[simp] theorem State.setRun_pc (s : State) (r : RunState) : (s.setRun r).pc = s.pc := rfl
@[simp] theorem State.setRun_cond (s : State) (r : RunState) : (s.setRun r).cond = s.cond := rfl
@[simp] theorem State.setRun_mem (s : State) (r : RunState) : (s.setRun r).mem = s.mem := rfl
@[simp] theorem State.setRun_run (s : State) (r : RunState) : (s.setRun r).run = r := rfl
@[simp] theorem State.setRun_params (s : State) (r : RunState) : (s.setRun r).params = s.params := rfl
@[simp] theorem State.setRun_hostIn (s : State) (r : RunState) : (s.setRun r).hostIn = s.hostIn := rfl
@[simp] theorem State.setRun_eofDraws (s : State) (r : RunState) : (s.setRun r).eofDraws = s.eofDraws := rfl
@[simp] theorem State.setRun_out (s : State) (r : RunState) : (s.setRun r).out = s.out := rfl
@[simp] theorem State.setRun_interruptIn (s : State) (r : RunState) : (s.setRun r).interruptIn = s.interruptIn := rfl
@[simp] theorem State.setRun_pending (s : State) (r : RunState) : (s.setRun r).pending = s.pending := rfl
@[simp] theorem State.reg_setRun (s : State) (r : RunState) (q : RegIx) : (s.setRun r).reg q = s.reg q := rfl
@[simp] theorem State.word_setRun (s : State) (r : RunState) (a : Word) : (s.setRun r).word a = s.word a := rfl

/-! ## setHostIn -/

@[simp] theorem State.setHostIn_regs (s : State) (h : HostInput) : (s.setHostIn h).regs = s.regs := rfl
@[simp] theorem State.setHostIn_pc (s : State) (h : HostInput) : (s.setHostIn h).pc = s.pc := rfl
@[simp] theorem State.setHostIn_cond (s : State) (h : HostInput) : (s.setHostIn h).cond = s.cond := rfl
@[simp] theorem State.setHostIn_mem (s : State) (h : HostInput) : (s.setHostIn h).mem = s.mem := rfl
@[simp] theorem State.setHostIn_run (s : State) (h : HostInput) : (s.setHostIn h).run = s.run := rfl
@[simp] theorem State.setHostIn_params (s : State) (h : HostInput) : (s.setHostIn h).params = s.params := rfl
@[simp] theorem State.setHostIn_hostIn (s : State) (h : HostInput) : (s.setHostIn h).hostIn = h := rfl
@[simp] theorem State.setHostIn_eofDraws (s : State) (h : HostInput) : (s.setHostIn h).eofDraws = s.eofDraws := rfl
@[simp] theorem State.setHostIn_out (s : State) (h : HostInput) : (s.setHostIn h).out = s.out := rfl
@[simp] theorem State.setHostIn_interruptIn (s : State) (h : HostInput) : (s.setHostIn h).interruptIn = s.interruptIn := rfl
@[simp] theorem State.setHostIn_pending (s : State) (h : HostInput) : (s.setHostIn h).pending = s.pending := rfl
@[simp] theorem State.reg_setHostIn (s : State) (h : HostInput) (q : RegIx) : (s.setHostIn h).reg q = s.reg q := rfl
@[simp] theorem State.word_setHostIn (s : State) (h : HostInput) (a : Word) : (s.setHostIn h).word a = s.word a := rfl

/-! ## setEofDraws -/

@[simp] theorem State.setEofDraws_regs (s : State) (n : Nat) : (s.setEofDraws n).regs = s.regs := rfl
@[simp] theorem State.setEofDraws_pc (s : State) (n : Nat) : (s.setEofDraws n).pc = s.pc := rfl
@[simp] theorem State.setEofDraws_cond (s : State) (n : Nat) : (s.setEofDraws n).cond = s.cond := rfl
@[simp] theorem State.setEofDraws_mem (s : State) (n : Nat) : (s.setEofDraws n).mem = s.mem := rfl
@[simp] theorem State.setEofDraws_run (s : State) (n : Nat) : (s.setEofDraws n).run = s.run := rfl
@[simp] theorem State.setEofDraws_params (s : State) (n : Nat) : (s.setEofDraws n).params = s.params := rfl
@[simp] theorem State.setEofDraws_hostIn (s : State) (n : Nat) : (s.setEofDraws n).hostIn = s.hostIn := rfl
@[simp] theorem State.setEofDraws_eofDraws (s : State) (n : Nat) : (s.setEofDraws n).eofDraws = n := rfl
@[simp] theorem State.setEofDraws_out (s : State) (n : Nat) : (s.setEofDraws n).out = s.out := rfl
@[simp] theorem State.setEofDraws_interruptIn (s : State) (n : Nat) : (s.setEofDraws n).interruptIn = s.interruptIn := rfl
@[simp] theorem State.setEofDraws_pending (s : State) (n : Nat) : (s.setEofDraws n).pending = s.pending := rfl
@[simp] theorem State.reg_setEofDraws (s : State) (n : Nat) (q : RegIx) : (s.setEofDraws n).reg q = s.reg q := rfl
@[simp] theorem State.word_setEofDraws (s : State) (n : Nat) (a : Word) : (s.setEofDraws n).word a = s.word a := rfl

/-! ## setOut -/

@[simp] theorem State.setOut_regs (s : State) (o : List Byte) : (s.setOut o).regs = s.regs := rfl
@[simp] theorem State.setOut_pc (s : State) (o : List Byte) : (s.setOut o).pc = s.pc := rfl
@[simp] theorem State.setOut_cond (s : State) (o : List Byte) : (s.setOut o).cond = s.cond := rfl
@[simp] theorem State.setOut_mem (s : State) (o : List Byte) : (s.setOut o).mem = s.mem := rfl
@[simp] theorem State.setOut_run (s : State) (o : List Byte) : (s.setOut o).run = s.run := rfl
@[simp] theorem State.setOut_params (s : State) (o : List Byte) : (s.setOut o).params = s.params := rfl
@[simp] theorem State.setOut_hostIn (s : State) (o : List Byte) : (s.setOut o).hostIn = s.hostIn := rfl
@[simp] theorem State.setOut_eofDraws (s : State) (o : List Byte) : (s.setOut o).eofDraws = s.eofDraws := rfl
@[simp] theorem State.setOut_out (s : State) (o : List Byte) : (s.setOut o).out = o := rfl
@[simp] theorem State.setOut_interruptIn (s : State) (o : List Byte) : (s.setOut o).interruptIn = s.interruptIn := rfl
@[simp] theorem State.setOut_pending (s : State) (o : List Byte) : (s.setOut o).pending = s.pending := rfl
@[simp] theorem State.reg_setOut (s : State) (o : List Byte) (q : RegIx) : (s.setOut o).reg q = s.reg q := rfl
@[simp] theorem State.word_setOut (s : State) (o : List Byte) (a : Word) : (s.setOut o).word a = s.word a := rfl

/-! ## setInterruptIn -/

@[simp] theorem State.setInterruptIn_regs (s : State) (n : Option Nat) : (s.setInterruptIn n).regs = s.regs := rfl
@[simp] theorem State.setInterruptIn_pc (s : State) (n : Option Nat) : (s.setInterruptIn n).pc = s.pc := rfl
@[simp] theorem State.setInterruptIn_cond (s : State) (n : Option Nat) : (s.setInterruptIn n).cond = s.cond := rfl
@[simp] theorem State.setInterruptIn_mem (s : State) (n : Option Nat) : (s.setInterruptIn n).mem = s.mem := rfl
@[simp] theorem State.setInterruptIn_run (s : State) (n : Option Nat) : (s.setInterruptIn n).run = s.run := rfl
@[simp] theorem State.setInterruptIn_params (s : State) (n : Option Nat) : (s.setInterruptIn n).params = s.params := rfl
@[simp] theorem State.setInterruptIn_hostIn (s : State) (n : Option Nat) : (s.setInterruptIn n).hostIn = s.hostIn := rfl
@[simp] theorem State.setInterruptIn_eofDraws (s : State) (n : Option Nat) : (s.setInterruptIn n).eofDraws = s.eofDraws := rfl
@[simp] theorem State.setInterruptIn_out (s : State) (n : Option Nat) : (s.setInterruptIn n).out = s.out := rfl
@[simp] theorem State.setInterruptIn_interruptIn (s : State) (n : Option Nat) : (s.setInterruptIn n).interruptIn = n := rfl
@[simp] theorem State.setInterruptIn_pending (s : State) (n : Option Nat) : (s.setInterruptIn n).pending = s.pending := rfl
@[simp] theorem State.reg_setInterruptIn (s : State) (n : Option Nat) (q : RegIx) : (s.setInterruptIn n).reg q = s.reg q := rfl
@[simp] theorem State.word_setInterruptIn (s : State) (n : Option Nat) (a : Word) : (s.setInterruptIn n).word a = s.word a := rfl

/-! ## setPending -/

@[simp] theorem State.setPending_regs (s : State) (p : Option Pending) : (s.setPending p).regs = s.regs := rfl
@[simp] theorem State.setPending_pc (s : State) (p : Option Pending) : (s.setPending p).pc = s.pc := rfl
@[simp] theorem State.setPending_cond (s : State) (p : Option Pending) : (s.setPending p).cond = s.cond := rfl
@[simp] theorem State.setPending_mem (s : State) (p : Option Pending) : (s.setPending p).mem = s.mem := rfl
@[simp] theorem State.setPending_run (s : State) (p : Option Pending) : (s.setPending p).run = s.run := rfl
@[simp] theorem State.setPending_params (s : State) (p : Option Pending) : (s.setPending p).params = s.params := rfl
@[simp] theorem State.setPending_hostIn (s : State) (p : Option Pending) : (s.setPending p).hostIn = s.hostIn := rfl
@[simp] theorem State.setPending_eofDraws (s : State) (p : Option Pending) : (s.setPending p).eofDraws = s.eofDraws := rfl
@[simp] theorem State.setPending_out (s : State) (p : Option Pending) : (s.setPending p).out = s.out := rfl
@[simp] theorem State.setPending_interruptIn (s : State) (p : Option Pending) : (s.setPending p).interruptIn = s.interruptIn := rfl
@[simp] theorem State.setPending_pending (s : State) (p : Option Pending) : (s.setPending p).pending = p := rfl
@[simp] theorem State.reg_setPending (s : State) (p : Option Pending) (q : RegIx) : (s.setPending p).reg q = s.reg q := rfl
@[simp] theorem State.word_setPending (s : State) (p : Option Pending) (a : Word) : (s.setPending p).word a = s.word a := rfl

/-! ## Register reads after a register write -/

/-- A register reads as the word last written to it (R21: none is hardwired). -/
@[simp] theorem State.reg_setReg_self (s : State) (r : RegIx) (v : Word) : (s.setReg r v).reg r = v := by
  simp [State.reg]

/-- A write leaves every other register as it was (R22). -/
theorem State.reg_setReg_of_ne (s : State) {r q : RegIx} (v : Word) (h : q ≠ r) :
    (s.setReg r v).reg q = s.reg q := by
  have h' : r.toNat ≠ q.toNat := fun e => h (BitVec.eq_of_toNat_eq e.symm)
  simp [State.reg, Vector.getElem_set_ne, h']

/-- Both cases at once. -/
theorem State.reg_setReg (s : State) (r q : RegIx) (v : Word) :
    (s.setReg r v).reg q = if q = r then v else s.reg q := by
  split
  · next h => subst h; simp
  · next h => exact s.reg_setReg_of_ne v h

/-- The word a memory gives, in terms of the list. -/
@[simp] theorem State.word_setMem (s : State) (m : Memory) (a : Word) : (s.setMem m).word a = m.get a.toNat := rfl

end Sys2Proof.Machine
end

