-- ==== Sys2Proof/Laws/Memory.lean ====
section
/-! SUPPORT. The laws of memory: a write is read back, leaves every other word alone, and keeps the canonical form; two
canonical memories that read alike are equal. -/

namespace Sys2Proof.Machine

/-! ## The list -/

@[simp] theorem Memory.get_nil (k : Nat) : Memory.get [] k = 0#16 := rfl

@[simp] theorem Memory.get_cons (a : Nat) (v : Word) (m : Memory) (k : Nat) :
    Memory.get ((a, v) :: m) k = if a = k then v else Memory.get m k := rfl

@[simp] theorem Memory.wfFrom_nil (lo : Nat) : Memory.wfFrom lo [] = true := rfl

theorem Memory.wfFrom_cons (lo a : Nat) (v : Word) (m : Memory) :
    Memory.wfFrom lo ((a, v) :: m) = true ↔ lo ≤ a ∧ a < 65536 ∧ v ≠ 0#16 ∧ Memory.wfFrom (a + 1) m = true := by
  simp [Memory.wfFrom, and_assoc]

/-- A canonical list from `lo` on lists nothing below `lo`. -/
theorem Memory.get_below {m : Memory} {lo k : Nat} (h : Memory.wfFrom lo m = true) (hk : k < lo) :
    Memory.get m k = 0#16 := by
  induction m generalizing lo with
  | nil => rfl
  | cons c m ih =>
    obtain ⟨a, v⟩ := c
    obtain ⟨hlo, _, _, hm⟩ := (Memory.wfFrom_cons lo a v m).1 h
    rw [Memory.get_cons, if_neg (by omega)]
    exact ih hm (by omega)

/-- The canonical form from a higher address is the canonical form from a lower one. -/
theorem Memory.wfFrom_mono {m : Memory} {lo lo' : Nat} (h : Memory.wfFrom lo m = true) (hl : lo' ≤ lo) :
    Memory.wfFrom lo' m = true := by
  cases m with
  | nil => rfl
  | cons c m =>
    obtain ⟨a, v⟩ := c
    obtain ⟨h1, h2, h3, h4⟩ := (Memory.wfFrom_cons lo a v m).1 h
    exact (Memory.wfFrom_cons lo' a v m).2 ⟨by omega, h2, h3, h4⟩

/-- A write leaves every other address as it was, whatever the list. -/
theorem Memory.get_set_of_ne (m : Memory) {k j : Nat} (v : Word) (h : j ≠ k) :
    (Memory.set m k v).get j = m.get j := by
  induction m with
  | nil => by_cases hv : v = 0#16 <;> simp [Memory.set, hv, Ne.symm h]
  | cons c m ih =>
    obtain ⟨a, x⟩ := c
    simp only [Memory.set]
    by_cases h1 : k < a
    · by_cases hv : v = 0#16 <;> simp [h1, hv, Ne.symm h]
    · by_cases h2 : k = a
      · subst h2
        by_cases hv : v = 0#16 <;> simp [hv, Ne.symm h]
      · simp [h1, h2, ih]

theorem Memory.get_set_self_from {m : Memory} {lo : Nat} (hm : Memory.wfFrom lo m = true) (k : Nat) (v : Word) :
    (Memory.set m k v).get k = v := by
  induction m generalizing lo with
  | nil => by_cases hv : v = 0#16 <;> simp [Memory.set, hv]
  | cons c m ih =>
    obtain ⟨a, x⟩ := c
    obtain ⟨_, _, _, hrest⟩ := (Memory.wfFrom_cons lo a x m).1 hm
    simp only [Memory.set]
    by_cases h1 : k < a
    · by_cases hv : v = 0#16
      · have h0 : Memory.get m k = 0#16 := Memory.get_below hrest (by omega)
        have h2 : a ≠ k := by omega
        simp [h1, hv, h0, h2]
      · simp [h1, hv]
    · by_cases h2 : k = a
      · subst h2
        by_cases hv : v = 0#16
        · have h0 : Memory.get m k = 0#16 := Memory.get_below hrest (by omega)
          simp [hv, h0]
        · simp [hv]
      · have h3 : a ≠ k := Ne.symm h2
        simp [h1, h2, h3, ih hrest]

/-- A write is read back (R45), in a canonical memory. -/
theorem Memory.get_set_self {m : Memory} (hm : m.wf = true) (k : Nat) (v : Word) :
    (Memory.set m k v).get k = v :=
  Memory.get_set_self_from hm k v

/-- Read after write, both cases. -/
theorem Memory.get_set {m : Memory} (hm : m.wf = true) (k j : Nat) (v : Word) :
    (Memory.set m k v).get j = if j = k then v else m.get j := by
  split
  · next h => subst h; exact Memory.get_set_self hm j v
  · next h => exact Memory.get_set_of_ne m v h

theorem Memory.wfFrom_set {m : Memory} {lo k : Nat} (v : Word) (hm : Memory.wfFrom lo m = true) (hlo : lo ≤ k)
    (hk : k < 65536) : Memory.wfFrom lo (Memory.set m k v) = true := by
  induction m generalizing lo with
  | nil => by_cases hv : v = 0#16 <;> simp [Memory.set, hv, Memory.wfFrom_cons, hlo, hk]
  | cons c m ih =>
    obtain ⟨a, x⟩ := c
    obtain ⟨ha, ha', hx, hrest⟩ := (Memory.wfFrom_cons lo a x m).1 hm
    simp only [Memory.set]
    by_cases h1 : k < a
    · by_cases hv : v = 0#16
      · simp [h1, hv, hm]
      · simp [h1, hv, Memory.wfFrom_cons, hlo, hk, ha', hx, hrest]
    · by_cases h2 : k = a
      · subst h2
        by_cases hv : v = 0#16
        · simpa [hv] using Memory.wfFrom_mono hrest (by omega)
        · simp [hv, Memory.wfFrom_cons, hlo, hk, hrest]
      · simpa [h1, h2, Memory.wfFrom_cons, ha, ha', hx] using ih hrest (by omega)

/-- A write keeps the canonical form. -/
theorem Memory.wf_set {m : Memory} (hm : m.wf = true) {k : Nat} (hk : k < 65536) (v : Word) :
    (Memory.set m k v).wf = true :=
  Memory.wfFrom_set v hm (Nat.zero_le k) hk

theorem Memory.ext_from {m m' : Memory} {lo : Nat} (h : Memory.wfFrom lo m = true) (h' : Memory.wfFrom lo m' = true)
    (e : ∀ k, m.get k = m'.get k) : m = m' := by
  induction m generalizing lo m' with
  | nil =>
    cases m' with
    | nil => rfl
    | cons c m' =>
      obtain ⟨a, v⟩ := c
      obtain ⟨_, _, hv, _⟩ := (Memory.wfFrom_cons lo a v m').1 h'
      exact absurd (by simpa using (e a).symm) hv
  | cons c m ih =>
    obtain ⟨a, v⟩ := c
    obtain ⟨_, _, hv, hrest⟩ := (Memory.wfFrom_cons lo a v m).1 h
    cases m' with
    | nil => exact absurd (by simpa using e a) hv
    | cons c' m' =>
      obtain ⟨b, w⟩ := c'
      obtain ⟨_, _, hw, hrest'⟩ := (Memory.wfFrom_cons lo b w m').1 h'
      have hab : a = b := by
        rcases Nat.lt_trichotomy a b with hlt | heq | hgt
        · have := e a
          rw [Memory.get_cons, if_pos rfl, Memory.get_cons, if_neg (by omega),
            Memory.get_below hrest' (by omega)] at this
          exact absurd this hv
        · exact heq
        · have := e b
          rw [Memory.get_cons, if_neg (by omega), Memory.get_below hrest (by omega), Memory.get_cons,
            if_pos rfl] at this
          exact absurd this.symm hw
      subst hab
      have hvw : v = w := by simpa using e a
      subst hvw
      have hmm : m = m' := ih hrest hrest' fun k => by
        by_cases hk : a = k
        · subst hk
          rw [Memory.get_below hrest (by omega), Memory.get_below hrest' (by omega)]
        · simpa [hk] using e k
      rw [hmm]

/-- Canonical memories that read alike are equal data. -/
theorem Memory.ext_of_wf {m m' : Memory} (h : m.wf = true) (h' : m'.wf = true) (e : ∀ k, m.get k = m'.get k) :
    m = m' :=
  Memory.ext_from h h' e

/-- The later of two stores at one address is the one that stays. -/
theorem Memory.set_set {m : Memory} (hm : m.wf = true) {k : Nat} (hk : k < 65536) (v w : Word) :
    (m.set k v).set k w = m.set k w :=
  Memory.ext_of_wf (Memory.wf_set (Memory.wf_set hm hk v) hk w) (Memory.wf_set hm hk w) fun j => by
    rw [Memory.get_set (Memory.wf_set hm hk v), Memory.get_set hm, Memory.get_set hm]
    split <;> rfl

/-! ## `memWrite` -/

@[simp] theorem memWrite_regs (a v : Word) (s : State) : (memWrite a v s).regs = s.regs := rfl
@[simp] theorem memWrite_reg (a v : Word) (s : State) (r : RegIx) : (memWrite a v s).reg r = s.reg r := rfl
@[simp] theorem memWrite_pc (a v : Word) (s : State) : (memWrite a v s).pc = s.pc := rfl
@[simp] theorem memWrite_cond (a v : Word) (s : State) : (memWrite a v s).cond = s.cond := rfl
@[simp] theorem memWrite_run (a v : Word) (s : State) : (memWrite a v s).run = s.run := rfl
@[simp] theorem memWrite_params (a v : Word) (s : State) : (memWrite a v s).params = s.params := rfl
@[simp] theorem memWrite_hostIn (a v : Word) (s : State) : (memWrite a v s).hostIn = s.hostIn := rfl
@[simp] theorem memWrite_eofDraws (a v : Word) (s : State) : (memWrite a v s).eofDraws = s.eofDraws := rfl
@[simp] theorem memWrite_out (a v : Word) (s : State) : (memWrite a v s).out = s.out := rfl
@[simp] theorem memWrite_interruptIn (a v : Word) (s : State) : (memWrite a v s).interruptIn = s.interruptIn := rfl
@[simp] theorem memWrite_pending (a v : Word) (s : State) : (memWrite a v s).pending = s.pending := rfl

/-- A write keeps memory canonical: every 16-bit address is an address (R41). -/
theorem memWrite_wf {s : State} (h : s.mem.wf = true) (a v : Word) : (memWrite a v s).mem.wf = true :=
  Memory.wf_set h a.isLt v

/-- A write leaves every other word as it was. -/
theorem word_memWrite_of_ne (s : State) {a b : Word} (v : Word) (h : b ≠ a) : (memWrite a v s).word b = s.word b :=
  Memory.get_set_of_ne s.mem v fun e => h (BitVec.eq_of_toNat_eq e)

/-- The written word is read back. -/
theorem word_memWrite_self {s : State} (h : s.mem.wf = true) (a v : Word) : (memWrite a v s).word a = v :=
  Memory.get_set_self h a.toNat v

end Sys2Proof.Machine
end

