-- ==== Sys2Proof/Laws/Ops.lean ====
section
/-! SUPPORT. One spec lemma per shared operation: everything it can change, and that it changes nothing else. -/

namespace Sys2Proof.Machine

/-! ## Flags -/

/-- `setcc` always puts exactly one flag in COND (R10). -/
@[simp] theorem oneHot_flagOf (v : Word) : oneHot (flagOf v) = true := by
  unfold flagOf oneHot; split <;> [simp; split <;> simp]

/-! ## writeReg: R[r] and COND, nothing else -/

@[simp] theorem writeReg_pc (r : RegIx) (v : Word) (s : State) : (writeReg r v s).pc = s.pc := rfl
@[simp] theorem writeReg_mem (r : RegIx) (v : Word) (s : State) : (writeReg r v s).mem = s.mem := rfl
@[simp] theorem writeReg_run (r : RegIx) (v : Word) (s : State) : (writeReg r v s).run = s.run := rfl
@[simp] theorem writeReg_params (r : RegIx) (v : Word) (s : State) : (writeReg r v s).params = s.params := rfl
@[simp] theorem writeReg_hostIn (r : RegIx) (v : Word) (s : State) : (writeReg r v s).hostIn = s.hostIn := rfl
@[simp] theorem writeReg_eofDraws (r : RegIx) (v : Word) (s : State) : (writeReg r v s).eofDraws = s.eofDraws := rfl
@[simp] theorem writeReg_out (r : RegIx) (v : Word) (s : State) : (writeReg r v s).out = s.out := rfl
@[simp] theorem writeReg_interruptIn (r : RegIx) (v : Word) (s : State) : (writeReg r v s).interruptIn = s.interruptIn := rfl
@[simp] theorem writeReg_pending (r : RegIx) (v : Word) (s : State) : (writeReg r v s).pending = s.pending := rfl
@[simp] theorem writeReg_cond (r : RegIx) (v : Word) (s : State) : (writeReg r v s).cond = flagOf v := rfl
@[simp] theorem writeReg_word (r : RegIx) (v : Word) (s : State) (a : Word) : (writeReg r v s).word a = s.word a := rfl

theorem writeReg_reg (r q : RegIx) (v : Word) (s : State) :
    (writeReg r v s).reg q = if q = r then v else s.reg q := by
  simp [writeReg, setcc, State.reg_setReg]

@[simp] theorem writeReg_reg_self (r : RegIx) (v : Word) (s : State) : (writeReg r v s).reg r = v := by
  simp [writeReg_reg]

/-! ## putBytes: the output stream, nothing else -/

@[simp] theorem putBytes_regs (bs : List Byte) (s : State) : (putBytes bs s).regs = s.regs := rfl
@[simp] theorem putBytes_pc (bs : List Byte) (s : State) : (putBytes bs s).pc = s.pc := rfl
@[simp] theorem putBytes_cond (bs : List Byte) (s : State) : (putBytes bs s).cond = s.cond := rfl
@[simp] theorem putBytes_mem (bs : List Byte) (s : State) : (putBytes bs s).mem = s.mem := rfl
@[simp] theorem putBytes_run (bs : List Byte) (s : State) : (putBytes bs s).run = s.run := rfl
@[simp] theorem putBytes_params (bs : List Byte) (s : State) : (putBytes bs s).params = s.params := rfl
@[simp] theorem putBytes_hostIn (bs : List Byte) (s : State) : (putBytes bs s).hostIn = s.hostIn := rfl
@[simp] theorem putBytes_eofDraws (bs : List Byte) (s : State) : (putBytes bs s).eofDraws = s.eofDraws := rfl
@[simp] theorem putBytes_interruptIn (bs : List Byte) (s : State) : (putBytes bs s).interruptIn = s.interruptIn := rfl
@[simp] theorem putBytes_pending (bs : List Byte) (s : State) : (putBytes bs s).pending = s.pending := rfl
@[simp] theorem putBytes_out (bs : List Byte) (s : State) : (putBytes bs s).out = s.out ++ bs := rfl
@[simp] theorem putBytes_reg (bs : List Byte) (s : State) (r : RegIx) : (putBytes bs s).reg r = s.reg r := rfl
@[simp] theorem putBytes_word (bs : List Byte) (s : State) (a : Word) : (putBytes bs s).word a = s.word a := rfl

/-! ## The host's input transactions: the input left and the count of draws, nothing else -/

@[simp] theorem hostPoll_regs (s : State) : (hostPoll s).2.regs = s.regs := by
  unfold hostPoll; split <;> rfl
@[simp] theorem hostPoll_pc (s : State) : (hostPoll s).2.pc = s.pc := by
  unfold hostPoll; split <;> rfl
@[simp] theorem hostPoll_cond (s : State) : (hostPoll s).2.cond = s.cond := by
  unfold hostPoll; split <;> rfl
@[simp] theorem hostPoll_mem (s : State) : (hostPoll s).2.mem = s.mem := by
  unfold hostPoll; split <;> rfl
@[simp] theorem hostPoll_run (s : State) : (hostPoll s).2.run = s.run := by
  unfold hostPoll; split <;> rfl
@[simp] theorem hostPoll_params (s : State) : (hostPoll s).2.params = s.params := by
  unfold hostPoll; split <;> rfl
@[simp] theorem hostPoll_out (s : State) : (hostPoll s).2.out = s.out := by
  unfold hostPoll; split <;> rfl
@[simp] theorem hostPoll_eofDraws (s : State) : (hostPoll s).2.eofDraws = s.eofDraws := by
  unfold hostPoll; split <;> rfl
@[simp] theorem hostPoll_interruptIn (s : State) : (hostPoll s).2.interruptIn = s.interruptIn := by
  unfold hostPoll; split <;> rfl
@[simp] theorem hostPoll_pending (s : State) : (hostPoll s).2.pending = s.pending := by
  unfold hostPoll; split <;> rfl
@[simp] theorem hostPoll_reg (s : State) (r : RegIx) : (hostPoll s).2.reg r = s.reg r := by simp [State.reg]
@[simp] theorem hostPoll_word (s : State) (a : Word) : (hostPoll s).2.word a = s.word a := by simp [State.word]

@[simp] theorem hostGetChar_regs (s : State) : (hostGetChar s).2.regs = s.regs := by
  unfold hostGetChar; split <;> rfl
@[simp] theorem hostGetChar_pc (s : State) : (hostGetChar s).2.pc = s.pc := by
  unfold hostGetChar; split <;> rfl
@[simp] theorem hostGetChar_cond (s : State) : (hostGetChar s).2.cond = s.cond := by
  unfold hostGetChar; split <;> rfl
@[simp] theorem hostGetChar_mem (s : State) : (hostGetChar s).2.mem = s.mem := by
  unfold hostGetChar; split <;> rfl
@[simp] theorem hostGetChar_run (s : State) : (hostGetChar s).2.run = s.run := by
  unfold hostGetChar; split <;> rfl
@[simp] theorem hostGetChar_params (s : State) : (hostGetChar s).2.params = s.params := by
  unfold hostGetChar; split <;> rfl
@[simp] theorem hostGetChar_out (s : State) : (hostGetChar s).2.out = s.out := by
  unfold hostGetChar; split <;> rfl
@[simp] theorem hostGetChar_interruptIn (s : State) : (hostGetChar s).2.interruptIn = s.interruptIn := by
  unfold hostGetChar; split <;> rfl
@[simp] theorem hostGetChar_pending (s : State) : (hostGetChar s).2.pending = s.pending := by
  unfold hostGetChar; split <;> rfl
@[simp] theorem hostGetChar_reg (s : State) (r : RegIx) : (hostGetChar s).2.reg r = s.reg r := by simp [State.reg]
@[simp] theorem hostGetChar_word (s : State) (a : Word) : (hostGetChar s).2.word a = s.word a := by simp [State.word]

/-! ## latchKey: the two device cells, nothing else -/

@[simp] theorem latchKey_regs (key : Option Word) (s : State) : (latchKey key s).regs = s.regs := by cases key <;> rfl
@[simp] theorem latchKey_pc (key : Option Word) (s : State) : (latchKey key s).pc = s.pc := by cases key <;> rfl
@[simp] theorem latchKey_cond (key : Option Word) (s : State) : (latchKey key s).cond = s.cond := by cases key <;> rfl
@[simp] theorem latchKey_run (key : Option Word) (s : State) : (latchKey key s).run = s.run := by cases key <;> rfl
@[simp] theorem latchKey_params (key : Option Word) (s : State) : (latchKey key s).params = s.params := by cases key <;> rfl
@[simp] theorem latchKey_hostIn (key : Option Word) (s : State) : (latchKey key s).hostIn = s.hostIn := by cases key <;> rfl
@[simp] theorem latchKey_eofDraws (key : Option Word) (s : State) : (latchKey key s).eofDraws = s.eofDraws := by cases key <;> rfl
@[simp] theorem latchKey_out (key : Option Word) (s : State) : (latchKey key s).out = s.out := by cases key <;> rfl
@[simp] theorem latchKey_interruptIn (key : Option Word) (s : State) : (latchKey key s).interruptIn = s.interruptIn := by cases key <;> rfl
@[simp] theorem latchKey_pending (key : Option Word) (s : State) : (latchKey key s).pending = s.pending := by cases key <;> rfl
@[simp] theorem latchKey_reg (key : Option Word) (s : State) (r : RegIx) : (latchKey key s).reg r = s.reg r := by
  cases key <;> rfl

theorem latchKey_wf (key : Option Word) {s : State} (h : s.mem.wf = true) : (latchKey key s).mem.wf = true := by
  cases key <;> exact memWrite_wf (memWrite_wf h _ _) _ _

theorem latchKey_word_of_ne (key : Option Word) (s : State) {a : Word} (h1 : a ≠ s.params.kbsrAddr)
    (h2 : a ≠ s.params.kbdrAddr) : (latchKey key s).word a = s.word a := by
  cases key <;> simp [latchKey, word_memWrite_of_ne, h1, h2]

/-- What the poll leaves in KBSR (R44). -/
theorem latchKey_word_kbsr (key : Option Word) {s : State} (h : s.mem.wf = true)
    (hne : s.params.kbsrAddr ≠ s.params.kbdrAddr) :
    (latchKey key s).word s.params.kbsrAddr = if key.isSome then 0x8000#16 else 0x0000#16 := by
  cases key <;> simp [latchKey, word_memWrite_of_ne _ _ hne, word_memWrite_self h]

/-- What the poll leaves in KBDR (R44). -/
theorem latchKey_word_kbdr (key : Option Word) {s : State} (h : s.mem.wf = true) :
    (latchKey key s).word s.params.kbdrAddr = key.getD 0x0000#16 := by
  cases key <;> simp [latchKey, word_memWrite_self (memWrite_wf h _ _)]

/-! ## pollKeyboard and afterRead: the device cells and the host's input, nothing else -/

@[simp] theorem pollKeyboard_regs (s : State) : (pollKeyboard s).regs = s.regs := by simp [pollKeyboard]
@[simp] theorem pollKeyboard_pc (s : State) : (pollKeyboard s).pc = s.pc := by simp [pollKeyboard]
@[simp] theorem pollKeyboard_cond (s : State) : (pollKeyboard s).cond = s.cond := by simp [pollKeyboard]
@[simp] theorem pollKeyboard_run (s : State) : (pollKeyboard s).run = s.run := by simp [pollKeyboard]
@[simp] theorem pollKeyboard_params (s : State) : (pollKeyboard s).params = s.params := by simp [pollKeyboard]
@[simp] theorem pollKeyboard_out (s : State) : (pollKeyboard s).out = s.out := by simp [pollKeyboard]
@[simp] theorem pollKeyboard_eofDraws (s : State) : (pollKeyboard s).eofDraws = s.eofDraws := by simp [pollKeyboard]
@[simp] theorem pollKeyboard_interruptIn (s : State) : (pollKeyboard s).interruptIn = s.interruptIn := by simp [pollKeyboard]
@[simp] theorem pollKeyboard_pending (s : State) : (pollKeyboard s).pending = s.pending := by simp [pollKeyboard]
@[simp] theorem pollKeyboard_reg (s : State) (r : RegIx) : (pollKeyboard s).reg r = s.reg r := by simp [pollKeyboard]

@[simp] theorem afterRead_regs (b : Word) (s : State) : (afterRead b s).regs = s.regs := by
  unfold afterRead; split <;> simp
@[simp] theorem afterRead_pc (b : Word) (s : State) : (afterRead b s).pc = s.pc := by
  unfold afterRead; split <;> simp
@[simp] theorem afterRead_cond (b : Word) (s : State) : (afterRead b s).cond = s.cond := by
  unfold afterRead; split <;> simp
@[simp] theorem afterRead_run (b : Word) (s : State) : (afterRead b s).run = s.run := by
  unfold afterRead; split <;> simp
@[simp] theorem afterRead_params (b : Word) (s : State) : (afterRead b s).params = s.params := by
  unfold afterRead; split <;> simp
@[simp] theorem afterRead_out (b : Word) (s : State) : (afterRead b s).out = s.out := by
  unfold afterRead; split <;> simp
@[simp] theorem afterRead_eofDraws (b : Word) (s : State) : (afterRead b s).eofDraws = s.eofDraws := by
  unfold afterRead; split <;> simp
@[simp] theorem afterRead_interruptIn (b : Word) (s : State) : (afterRead b s).interruptIn = s.interruptIn := by
  unfold afterRead; split <;> simp
@[simp] theorem afterRead_pending (b : Word) (s : State) : (afterRead b s).pending = s.pending := by
  unfold afterRead; split <;> simp
@[simp] theorem afterRead_reg (b : Word) (s : State) (r : RegIx) : (afterRead b s).reg r = s.reg r := by
  unfold afterRead; split <;> simp

theorem pollKeyboard_wf {s : State} (h : s.mem.wf = true) : (pollKeyboard s).mem.wf = true :=
  latchKey_wf _ (by simpa using h)

theorem pollKeyboard_word_of_ne (s : State) {a : Word} (h1 : a ≠ s.params.kbsrAddr) (h2 : a ≠ s.params.kbdrAddr) :
    (pollKeyboard s).word a = s.word a := by
  simp [pollKeyboard, latchKey_word_of_ne, h1, h2]

/-- A read of any other address changes nothing (R43). -/
@[simp] theorem afterRead_of_ne {b : Word} {s : State} (h : b ≠ s.params.kbsrAddr) : afterRead b s = s := by
  simp [afterRead, h]

/-- A read of KBSR polls (R44). -/
@[simp] theorem afterRead_kbsr (s : State) : afterRead s.params.kbsrAddr s = pollKeyboard s := by
  simp [afterRead]

theorem afterRead_wf (b : Word) {s : State} (h : s.mem.wf = true) : (afterRead b s).mem.wf = true := by
  unfold afterRead; split
  · exact pollKeyboard_wf h
  · exact h

theorem afterRead_word_of_ne (b : Word) (s : State) {a : Word} (h1 : a ≠ s.params.kbsrAddr)
    (h2 : a ≠ s.params.kbdrAddr) : (afterRead b s).word a = s.word a := by
  unfold afterRead; split
  · exact pollKeyboard_word_of_ne s h1 h2
  · rfl

@[simp] theorem memRead_fst (a : Word) (s : State) : (memRead a s).1 = (afterRead a s).word a := rfl
@[simp] theorem memRead_snd (a : Word) (s : State) : (memRead a s).2 = afterRead a s := rfl

/-! ## A read does not see the output, COND or the countdown -/

theorem latchKey_putBytes (key : Option Word) (bs : List Byte) (s : State) :
    latchKey key (putBytes bs s) = putBytes bs (latchKey key s) := by cases key <;> rfl

theorem hostPoll_putBytes (bs : List Byte) (s : State) :
    hostPoll (putBytes bs s) = ((hostPoll s).1, putBytes bs (hostPoll s).2) := by
  unfold hostPoll; simp only [putBytes_hostIn]; cases s.hostIn <;> rfl

/-- Output written before a read may as well be written after it. -/
theorem afterRead_putBytes (a : Word) (bs : List Byte) (s : State) :
    afterRead a (putBytes bs s) = putBytes bs (afterRead a s) := by
  unfold afterRead
  by_cases h : a = s.params.kbsrAddr <;> simp [h, pollKeyboard, hostPoll_putBytes, latchKey_putBytes]

/-- A read does not see the output. -/
theorem afterRead_setOut (a : Word) (o : List Byte) (s : State) :
    afterRead a (s.setOut o) = (afterRead a s).setOut o := by
  have hl : ∀ (key : Option Word) (u : State), latchKey key (u.setOut o) = (latchKey key u).setOut o :=
    fun key u => by cases key <;> rfl
  have hp : hostPoll (s.setOut o) = ((hostPoll s).1, (hostPoll s).2.setOut o) := by
    unfold hostPoll; simp only [State.setOut_hostIn]; cases s.hostIn <;> rfl
  unfold afterRead
  by_cases h : a = s.params.kbsrAddr <;> simp [h, pollKeyboard, hp, hl]

theorem latchKey_setCond (key : Option Word) (c : Word) (s : State) :
    latchKey key (s.setCond c) = (latchKey key s).setCond c := by cases key <;> rfl

theorem hostPoll_setCond (c : Word) (s : State) :
    hostPoll (s.setCond c) = ((hostPoll s).1, (hostPoll s).2.setCond c) := by
  unfold hostPoll; simp only [State.setCond_hostIn]; cases s.hostIn <;> rfl

/-- A read does not see COND (R28). -/
theorem afterRead_setCond (a c : Word) (s : State) :
    afterRead a (s.setCond c) = (afterRead a s).setCond c := by
  unfold afterRead
  by_cases h : a = s.params.kbsrAddr <;> simp [h, pollKeyboard, hostPoll_setCond, latchKey_setCond]

/-- A read does not see the host's countdown. -/
theorem afterRead_setInterruptIn (a : Word) (n : Option Nat) (s : State) :
    afterRead a (s.setInterruptIn n) = (afterRead a s).setInterruptIn n := by
  have hl : ∀ (key : Option Word) (u : State),
      latchKey key (u.setInterruptIn n) = (latchKey key u).setInterruptIn n := fun key u => by cases key <;> rfl
  have hp : hostPoll (s.setInterruptIn n) = ((hostPoll s).1, (hostPoll s).2.setInterruptIn n) := by
    unfold hostPoll; simp only [State.setInterruptIn_hostIn]; cases s.hostIn <;> rfl
  unfold afterRead
  by_cases h : a = s.params.kbsrAddr <;> simp [h, pollKeyboard, hp, hl]

/-! ## The cycle -/

@[simp] theorem fetch_fst (s : State) : (fetch s).1 = (afterRead s.pc s).word s.pc := rfl
@[simp] theorem fetch_snd (s : State) : (fetch s).2 = (afterRead s.pc s).setPc (s.pc + 1#16) := by
  simp [fetch]

/-! ## raiseFault: the run state, nothing else (R161) -/

@[simp] theorem raiseFault_regs (reason : FaultReason) (instr : Word) (s : State) : (raiseFault reason instr s).regs = s.regs := rfl
@[simp] theorem raiseFault_pc (reason : FaultReason) (instr : Word) (s : State) : (raiseFault reason instr s).pc = s.pc := rfl
@[simp] theorem raiseFault_cond (reason : FaultReason) (instr : Word) (s : State) : (raiseFault reason instr s).cond = s.cond := rfl
@[simp] theorem raiseFault_mem (reason : FaultReason) (instr : Word) (s : State) : (raiseFault reason instr s).mem = s.mem := rfl
@[simp] theorem raiseFault_params (reason : FaultReason) (instr : Word) (s : State) : (raiseFault reason instr s).params = s.params := rfl
@[simp] theorem raiseFault_hostIn (reason : FaultReason) (instr : Word) (s : State) : (raiseFault reason instr s).hostIn = s.hostIn := rfl
@[simp] theorem raiseFault_eofDraws (reason : FaultReason) (instr : Word) (s : State) : (raiseFault reason instr s).eofDraws = s.eofDraws := rfl
@[simp] theorem raiseFault_out (reason : FaultReason) (instr : Word) (s : State) : (raiseFault reason instr s).out = s.out := rfl
@[simp] theorem raiseFault_interruptIn (reason : FaultReason) (instr : Word) (s : State) : (raiseFault reason instr s).interruptIn = s.interruptIn := rfl
@[simp] theorem raiseFault_pending (reason : FaultReason) (instr : Word) (s : State) : (raiseFault reason instr s).pending = s.pending := rfl
@[simp] theorem raiseFault_run (reason : FaultReason) (instr : Word) (s : State) :
    (raiseFault reason instr s).run = .faulted { reason := reason, instr := instr, pc := s.pc } := rfl
@[simp] theorem raiseFault_reg (reason : FaultReason) (instr : Word) (s : State) (r : RegIx) :
    (raiseFault reason instr s).reg r = s.reg r := rfl
@[simp] theorem raiseFault_word (reason : FaultReason) (instr : Word) (s : State) (a : Word) :
    (raiseFault reason instr s).word a = s.word a := rfl

/-! ## cancel and tick -/

@[simp] theorem State.cancel_regs (s : State) : (s.cancel).regs = s.regs := rfl
@[simp] theorem State.cancel_pc (s : State) : (s.cancel).pc = s.pc := rfl
@[simp] theorem State.cancel_cond (s : State) : (s.cancel).cond = s.cond := rfl
@[simp] theorem State.cancel_mem (s : State) : (s.cancel).mem = s.mem := rfl
@[simp] theorem State.cancel_params (s : State) : (s.cancel).params = s.params := rfl
@[simp] theorem State.cancel_hostIn (s : State) : (s.cancel).hostIn = s.hostIn := rfl
@[simp] theorem State.cancel_eofDraws (s : State) : (s.cancel).eofDraws = s.eofDraws := rfl
@[simp] theorem State.cancel_out (s : State) : (s.cancel).out = s.out := rfl
@[simp] theorem State.cancel_interruptIn (s : State) : (s.cancel).interruptIn = s.interruptIn := rfl
@[simp] theorem State.cancel_run (s : State) : s.cancel.run = .cancelled := rfl
@[simp] theorem State.cancel_pending (s : State) : s.cancel.pending = none := rfl
@[simp] theorem State.cancel_reg (s : State) (r : RegIx) : s.cancel.reg r = s.reg r := rfl
@[simp] theorem State.cancel_word (s : State) (a : Word) : s.cancel.word a = s.word a := rfl

@[simp] theorem State.tick_regs (s : State) : (s.tick).regs = s.regs := by
  unfold State.tick; split <;> rfl
@[simp] theorem State.tick_pc (s : State) : (s.tick).pc = s.pc := by
  unfold State.tick; split <;> rfl
@[simp] theorem State.tick_cond (s : State) : (s.tick).cond = s.cond := by
  unfold State.tick; split <;> rfl
@[simp] theorem State.tick_mem (s : State) : (s.tick).mem = s.mem := by
  unfold State.tick; split <;> rfl
@[simp] theorem State.tick_run (s : State) : (s.tick).run = s.run := by
  unfold State.tick; split <;> rfl
@[simp] theorem State.tick_params (s : State) : (s.tick).params = s.params := by
  unfold State.tick; split <;> rfl
@[simp] theorem State.tick_hostIn (s : State) : (s.tick).hostIn = s.hostIn := by
  unfold State.tick; split <;> rfl
@[simp] theorem State.tick_eofDraws (s : State) : (s.tick).eofDraws = s.eofDraws := by
  unfold State.tick; split <;> rfl
@[simp] theorem State.tick_out (s : State) : (s.tick).out = s.out := by
  unfold State.tick; split <;> rfl
@[simp] theorem State.tick_pending (s : State) : (s.tick).pending = s.pending := by
  unfold State.tick; split <;> rfl
/-- A boundary that passes changes nothing but the countdown. -/
theorem State.tick_eq (s : State) : ∃ n, s.tick = s.setInterruptIn n := by
  unfold State.tick; split
  · exact ⟨_, rfl⟩
  · exact ⟨s.interruptIn, rfl⟩

/-- The word fetched does not depend on the countdown. -/
@[simp] theorem fetch_tick_fst (s : State) : (fetch s.tick).1 = (fetch s).1 := by
  obtain ⟨n, h⟩ := s.tick_eq
  simp [h, afterRead_setInterruptIn]

@[simp] theorem State.tick_reg (s : State) (r : RegIx) : s.tick.reg r = s.reg r := by simp [State.reg]
@[simp] theorem State.tick_word (s : State) (a : Word) : s.tick.word a = s.word a := by simp [State.word]

end Sys2Proof.Machine
end

