-- ==== Sys2Proof/Laws/PerInstr.lean ====
section
/-! SUPPORT. The statements made of every instruction as syntax, one lemma per constructor. RowMatch: an instruction's
word agrees with its row of the opcode table on the row's fixed bits (spec/30_encoding.md Table 30-3). -/

namespace Sys2Proof.Laws.RowMatch

/-- The word of `i` is of `i`'s form. -/
def Statement (i : Instr) : Prop := i.form.covers (encode i) = true

/-- Agreement with a row, bit by bit. -/
theorem covers_of_bits {f : Form} {w : Word}
    (h : ∀ k < 16, (w.getLsbD k && f.mask.getLsbD k) = f.pattern.getLsbD k) : f.covers w = true := by
  rw [Form.covers, beq_iff_eq]
  apply BitVec.eq_of_getLsbD_eq
  intro k hk
  simpa [-BitVec.getLsbD_eq_getElem] using h k hk

theorem addReg (dr sr1 sr2 : RegIx) (ign : BitVec 2) : Statement (.addReg dr sr1 sr2 ign) := by
  refine covers_of_bits fun k hk => ?_
  interval_cases k <;>
    simp [-BitVec.getLsbD_eq_getElem, Instr.form, Form.mask, Form.pattern, encode, place_getLsbD]

theorem addImm (dr sr1 : RegIx) (imm5 : BitVec 5) : Statement (.addImm dr sr1 imm5) := by
  refine covers_of_bits fun k hk => ?_
  interval_cases k <;>
    simp [-BitVec.getLsbD_eq_getElem, Instr.form, Form.mask, Form.pattern, encode, place_getLsbD]

theorem andReg (dr sr1 sr2 : RegIx) (ign : BitVec 2) : Statement (.andReg dr sr1 sr2 ign) := by
  refine covers_of_bits fun k hk => ?_
  interval_cases k <;>
    simp [-BitVec.getLsbD_eq_getElem, Instr.form, Form.mask, Form.pattern, encode, place_getLsbD]

theorem andImm (dr sr1 : RegIx) (imm5 : BitVec 5) : Statement (.andImm dr sr1 imm5) := by
  refine covers_of_bits fun k hk => ?_
  interval_cases k <;>
    simp [-BitVec.getLsbD_eq_getElem, Instr.form, Form.mask, Form.pattern, encode, place_getLsbD]

theorem not (dr sr : RegIx) (ign : BitVec 6) : Statement (.not dr sr ign) := by
  refine covers_of_bits fun k hk => ?_
  interval_cases k <;>
    simp [-BitVec.getLsbD_eq_getElem, Instr.form, Form.mask, Form.pattern, encode, place_getLsbD]

theorem br (n z p : Bool) (off : BitVec 9) : Statement (.br n z p off) := by
  refine covers_of_bits fun k hk => ?_
  interval_cases k <;>
    simp [-BitVec.getLsbD_eq_getElem, Instr.form, Form.mask, Form.pattern, encode, place_getLsbD]

theorem jmp (base : RegIx) (ignHi : BitVec 3) (ignLo : BitVec 6) : Statement (.jmp base ignHi ignLo) := by
  refine covers_of_bits fun k hk => ?_
  interval_cases k <;>
    simp [-BitVec.getLsbD_eq_getElem, Instr.form, Form.mask, Form.pattern, encode, place_getLsbD]

theorem ret (ignHi : BitVec 3) (ignLo : BitVec 6) : Statement (.ret ignHi ignLo) := by
  refine covers_of_bits fun k hk => ?_
  interval_cases k <;>
    simp [-BitVec.getLsbD_eq_getElem, Instr.form, Form.mask, Form.pattern, encode, place_getLsbD]

theorem jsr (off : BitVec 11) : Statement (.jsr off) := by
  refine covers_of_bits fun k hk => ?_
  interval_cases k <;>
    simp [-BitVec.getLsbD_eq_getElem, Instr.form, Form.mask, Form.pattern, encode, place_getLsbD]

theorem jsrr (base : RegIx) (ignHi : BitVec 2) (ignLo : BitVec 6) : Statement (.jsrr base ignHi ignLo) := by
  refine covers_of_bits fun k hk => ?_
  interval_cases k <;>
    simp [-BitVec.getLsbD_eq_getElem, Instr.form, Form.mask, Form.pattern, encode, place_getLsbD]

theorem ld (dr : RegIx) (off : BitVec 9) : Statement (.ld dr off) := by
  refine covers_of_bits fun k hk => ?_
  interval_cases k <;>
    simp [-BitVec.getLsbD_eq_getElem, Instr.form, Form.mask, Form.pattern, encode, place_getLsbD]

theorem ldi (dr : RegIx) (off : BitVec 9) : Statement (.ldi dr off) := by
  refine covers_of_bits fun k hk => ?_
  interval_cases k <;>
    simp [-BitVec.getLsbD_eq_getElem, Instr.form, Form.mask, Form.pattern, encode, place_getLsbD]

theorem ldr (dr base : RegIx) (off : BitVec 6) : Statement (.ldr dr base off) := by
  refine covers_of_bits fun k hk => ?_
  interval_cases k <;>
    simp [-BitVec.getLsbD_eq_getElem, Instr.form, Form.mask, Form.pattern, encode, place_getLsbD]

theorem lea (dr : RegIx) (off : BitVec 9) : Statement (.lea dr off) := by
  refine covers_of_bits fun k hk => ?_
  interval_cases k <;>
    simp [-BitVec.getLsbD_eq_getElem, Instr.form, Form.mask, Form.pattern, encode, place_getLsbD]

theorem st (sr : RegIx) (off : BitVec 9) : Statement (.st sr off) := by
  refine covers_of_bits fun k hk => ?_
  interval_cases k <;>
    simp [-BitVec.getLsbD_eq_getElem, Instr.form, Form.mask, Form.pattern, encode, place_getLsbD]

theorem sti (sr : RegIx) (off : BitVec 9) : Statement (.sti sr off) := by
  refine covers_of_bits fun k hk => ?_
  interval_cases k <;>
    simp [-BitVec.getLsbD_eq_getElem, Instr.form, Form.mask, Form.pattern, encode, place_getLsbD]

theorem str (sr base : RegIx) (off : BitVec 6) : Statement (.str sr base off) := by
  refine covers_of_bits fun k hk => ?_
  interval_cases k <;>
    simp [-BitVec.getLsbD_eq_getElem, Instr.form, Form.mask, Form.pattern, encode, place_getLsbD]

theorem trap (ign : BitVec 4) (vect : BitVec 8) : Statement (.trap ign vect) := by
  refine covers_of_bits fun k hk => ?_
  interval_cases k <;>
    simp [-BitVec.getLsbD_eq_getElem, Instr.form, Form.mask, Form.pattern, encode, place_getLsbD]

theorem getc (ign : BitVec 4) : Statement (.getc ign) := by
  refine covers_of_bits fun k hk => ?_
  interval_cases k <;>
    simp [-BitVec.getLsbD_eq_getElem, Instr.form, Form.mask, Form.pattern, encode, place_getLsbD]

theorem out (ign : BitVec 4) : Statement (.out ign) := by
  refine covers_of_bits fun k hk => ?_
  interval_cases k <;>
    simp [-BitVec.getLsbD_eq_getElem, Instr.form, Form.mask, Form.pattern, encode, place_getLsbD]

theorem puts (ign : BitVec 4) : Statement (.puts ign) := by
  refine covers_of_bits fun k hk => ?_
  interval_cases k <;>
    simp [-BitVec.getLsbD_eq_getElem, Instr.form, Form.mask, Form.pattern, encode, place_getLsbD]

theorem inp (ign : BitVec 4) : Statement (.inp ign) := by
  refine covers_of_bits fun k hk => ?_
  interval_cases k <;>
    simp [-BitVec.getLsbD_eq_getElem, Instr.form, Form.mask, Form.pattern, encode, place_getLsbD]

theorem putsp (ign : BitVec 4) : Statement (.putsp ign) := by
  refine covers_of_bits fun k hk => ?_
  interval_cases k <;>
    simp [-BitVec.getLsbD_eq_getElem, Instr.form, Form.mask, Form.pattern, encode, place_getLsbD]

theorem halt (ign : BitVec 4) : Statement (.halt ign) := by
  refine covers_of_bits fun k hk => ?_
  interval_cases k <;>
    simp [-BitVec.getLsbD_eq_getElem, Instr.form, Form.mask, Form.pattern, encode, place_getLsbD]

theorem rti (ign : BitVec 12) : Statement (.rti ign) := by
  refine covers_of_bits fun k hk => ?_
  interval_cases k <;>
    simp [-BitVec.getLsbD_eq_getElem, Instr.form, Form.mask, Form.pattern, encode, place_getLsbD]

theorem reserved (ign : BitVec 12) : Statement (.reserved ign) := by
  refine covers_of_bits fun k hk => ?_
  interval_cases k <;>
    simp [-BitVec.getLsbD_eq_getElem, Instr.form, Form.mask, Form.pattern, encode, place_getLsbD]

end Sys2Proof.Laws.RowMatch
end

