-- ==== Sys2Proof/Laws/Trap.lean ====
section
/-! SUPPORT. What the trap services' shared operations can do: the character services end or wait, the string loop
reads, writes output and touches the device cells at most. -/

namespace Sys2Proof.Machine

/-! ## GETC and IN -/

/-- GETC ends with a character in R0 or waits with nothing written (R131, R138). -/
theorem getcAttempt_cases (s : State) :
    (∃ c, (hostGetChar s).1 = some c ∧
      getcAttempt s = (writeReg trapReg c (hostGetChar s).2).setPending none) ∨
    ((hostGetChar s).1 = none ∧ getcAttempt s = (hostGetChar s).2.setPending (some .getc)) := by
  unfold getcAttempt
  cases h : hostGetChar s with
  | mk c s' => cases c <;> simp

/-- IN ends with the echo and a character in R0, or waits with nothing more written (R134, R138). -/
theorem inAttempt_cases (s : State) :
    (∃ c, (hostGetChar s).1 = some c ∧
      inAttempt s = (writeReg trapReg c (putBytes [lowByte c] (hostGetChar s).2)).setPending none) ∨
    ((hostGetChar s).1 = none ∧ inAttempt s = (hostGetChar s).2.setPending (some .inp)) := by
  unfold inAttempt
  cases h : hostGetChar s with
  | mk c s' => cases c <;> simp

/-! ## The string loop -/

/-- One turn of the loop (R133, R135). -/
theorem readString_succ (chars : Word → List Byte) (n : Nat) (a : Word) (s : State) :
    readString chars (n + 1) a s =
      if (afterRead a s).word a = 0#16 then (none, afterRead a s)
      else readString chars n (a + 1#16) (putBytes (chars ((afterRead a s).word a)) (afterRead a s)) := rfl

/-- A property that the loop's own operations keep is kept by the loop. -/
theorem readString_keeps {P : State → Prop} (chars : Word → List Byte)
    (hread : ∀ a s, P s → P (afterRead a s)) (hput : ∀ bs s, P s → P (putBytes bs s)) (n : Nat) (a : Word) (s : State)
    (h : P s) : P (readString chars n a s).2 := by
  induction n generalizing a s with
  | zero => exact h
  | succ n ih =>
    rw [readString_succ]
    split
    · exact hread a s h
    · exact ih _ _ (hput _ _ (hread a s h))

theorem readString_wf (chars : Word → List Byte) (n : Nat) (a : Word) {s : State}
    (h : s.mem.wf = true) : (readString chars n a s).2.mem.wf = true :=
  readString_keeps (P := fun s => s.mem.wf = true) chars (fun a _ h => afterRead_wf a h) (fun _ _ h => h) n a s h

@[simp] theorem readString_regs (chars : Word → List Byte) (n : Nat) (a : Word) (s : State) :
    (readString chars n a s).2.regs = s.regs :=
  readString_keeps (P := fun t => t.regs = s.regs) chars (fun a _ h => by simpa using h) (fun _ _ h => h) n a s rfl

@[simp] theorem readString_pc (chars : Word → List Byte) (n : Nat) (a : Word) (s : State) :
    (readString chars n a s).2.pc = s.pc :=
  readString_keeps (P := fun t => t.pc = s.pc) chars (fun a _ h => by simpa using h) (fun _ _ h => h) n a s rfl

@[simp] theorem readString_cond (chars : Word → List Byte) (n : Nat) (a : Word) (s : State) :
    (readString chars n a s).2.cond = s.cond :=
  readString_keeps (P := fun t => t.cond = s.cond) chars (fun a _ h => by simpa using h) (fun _ _ h => h) n a s rfl

@[simp] theorem readString_run (chars : Word → List Byte) (n : Nat) (a : Word) (s : State) :
    (readString chars n a s).2.run = s.run :=
  readString_keeps (P := fun t => t.run = s.run) chars (fun a _ h => by simpa using h) (fun _ _ h => h) n a s rfl

@[simp] theorem readString_params (chars : Word → List Byte) (n : Nat) (a : Word) (s : State) :
    (readString chars n a s).2.params = s.params :=
  readString_keeps (P := fun t => t.params = s.params) chars (fun a _ h => by simpa using h) (fun _ _ h => h) n a s rfl

@[simp] theorem readString_interruptIn (chars : Word → List Byte) (n : Nat) (a : Word) (s : State) :
    (readString chars n a s).2.interruptIn = s.interruptIn :=
  readString_keeps (P := fun t => t.interruptIn = s.interruptIn) chars (fun a _ h => by simpa using h) (fun _ _ h => h) n a s rfl

@[simp] theorem readString_pending (chars : Word → List Byte) (n : Nat) (a : Word) (s : State) :
    (readString chars n a s).2.pending = s.pending :=
  readString_keeps (P := fun t => t.pending = s.pending) chars (fun a _ h => by simpa using h) (fun _ _ h => h) n a s rfl

@[simp] theorem readString_eofDraws (chars : Word → List Byte) (n : Nat) (a : Word) (s : State) :
    (readString chars n a s).2.eofDraws = s.eofDraws :=
  readString_keeps (P := fun t => t.eofDraws = s.eofDraws) chars (fun a _ h => by simpa using h) (fun _ _ h => h) n a s rfl

/-- The loop changes no word of memory but the device cells (R44). -/
theorem readString_word_of_ne (chars : Word → List Byte) (n : Nat) (a : Word) (s : State)
    {b : Word} (h1 : b ≠ s.params.kbsrAddr) (h2 : b ≠ s.params.kbdrAddr) :
    (readString chars n a s).2.word b = s.word b :=
  (readString_keeps (P := fun t => t.params = s.params ∧ t.word b = s.word b) chars
    (fun a t h => ⟨by simpa using h.1, by
      rw [afterRead_word_of_ne a t (by rw [h.1]; exact h1) (by rw [h.1]; exact h2)]; exact h.2⟩)
    (fun _ _ h => h) n a s ⟨rfl, rfl⟩).2

/-- The loop only adds to the output (R139). -/
theorem readString_out (chars : Word → List Byte) (n : Nat) (a : Word) (s : State) :
    ∃ bs, (readString chars n a s).2.out = s.out ++ bs :=
  readString_keeps (P := fun t => ∃ bs, t.out = s.out ++ bs) chars (fun a _ h => by simpa using h)
    (fun bs t ⟨b, h⟩ => ⟨b ++ bs, by simp [h]⟩) n a s ⟨[], by simp⟩

/-- A service of strings ends in the state its reads leave, or never: then the CORE's state is as it was, the output holds
what was written, and the service stays (log 21). -/
theorem writeString_cases (chars : Word → List Byte) (a : Word) (s : State) :
    ((readString chars (stringBound s) a s).1 = none ∧
      writeString chars a s = (readString chars (stringBound s) a s).2) ∨
    ∃ bs round, (∃ b, (readString chars (stringBound s) a s).1 = some b) ∧
      (readString chars (stringBound s) a s).2.out = s.out ++ bs ∧
      writeString chars a s = (s.setOut (s.out ++ bs)).setPending (some (.endless round)) := by
  obtain ⟨bs, hbs⟩ := readString_out chars (stringBound s) a s
  unfold writeString
  cases h : readString chars (stringBound s) a s with
  | mk o t =>
    rw [h] at hbs
    cases o with
    | none => exact .inl ⟨rfl, rfl⟩
    | some b =>
      simp only at hbs
      exact .inr ⟨bs, (readString chars memoryWords b (t.setOut [])).2.out, ⟨b, rfl⟩, hbs, by simp only [hbs]⟩

/-- A property that reading, writing output and marking the service endless keep is kept by a service of strings. -/
theorem writeString_keeps {P : State → Prop} (chars : Word → List Byte)
    (hread : ∀ a s, P s → P (afterRead a s)) (hput : ∀ bs s, P s → P (putBytes bs s))
    (hpend : ∀ round s, P s → P (s.setPending (some (.endless round)))) (a : Word) (s : State) (h : P s) :
    P (writeString chars a s) := by
  obtain ⟨-, e⟩ | ⟨bs, round, -, -, e⟩ := writeString_cases chars a s
  · rw [e]; exact readString_keeps chars hread hput _ a s h
  · rw [e]; exact hpend _ _ (hput bs s h)

theorem writeString_wf (chars : Word → List Byte) (a : Word) {s : State} (h : s.mem.wf = true) :
    (writeString chars a s).mem.wf = true :=
  writeString_keeps (P := fun s => s.mem.wf = true) chars (fun a _ h => afterRead_wf a h) (fun _ _ h => h)
    (fun _ _ h => h) a s h

@[simp] theorem writeString_regs (chars : Word → List Byte) (a : Word) (s : State) :
    (writeString chars a s).regs = s.regs :=
  writeString_keeps (P := fun t => t.regs = s.regs) chars (fun a _ h => by simpa using h) (fun _ _ h => h)
    (fun _ _ h => h) a s rfl

@[simp] theorem writeString_pc (chars : Word → List Byte) (a : Word) (s : State) :
    (writeString chars a s).pc = s.pc :=
  writeString_keeps (P := fun t => t.pc = s.pc) chars (fun a _ h => by simpa using h) (fun _ _ h => h)
    (fun _ _ h => h) a s rfl

@[simp] theorem writeString_cond (chars : Word → List Byte) (a : Word) (s : State) :
    (writeString chars a s).cond = s.cond :=
  writeString_keeps (P := fun t => t.cond = s.cond) chars (fun a _ h => by simpa using h) (fun _ _ h => h)
    (fun _ _ h => h) a s rfl

@[simp] theorem writeString_run (chars : Word → List Byte) (a : Word) (s : State) :
    (writeString chars a s).run = s.run :=
  writeString_keeps (P := fun t => t.run = s.run) chars (fun a _ h => by simpa using h) (fun _ _ h => h)
    (fun _ _ h => h) a s rfl

@[simp] theorem writeString_params (chars : Word → List Byte) (a : Word) (s : State) :
    (writeString chars a s).params = s.params :=
  writeString_keeps (P := fun t => t.params = s.params) chars (fun a _ h => by simpa using h) (fun _ _ h => h)
    (fun _ _ h => h) a s rfl

@[simp] theorem writeString_interruptIn (chars : Word → List Byte) (a : Word) (s : State) :
    (writeString chars a s).interruptIn = s.interruptIn :=
  writeString_keeps (P := fun t => t.interruptIn = s.interruptIn) chars (fun a _ h => by simpa using h) (fun _ _ h => h)
    (fun _ _ h => h) a s rfl

@[simp] theorem writeString_eofDraws (chars : Word → List Byte) (a : Word) (s : State) :
    (writeString chars a s).eofDraws = s.eofDraws :=
  writeString_keeps (P := fun t => t.eofDraws = s.eofDraws) chars (fun a _ h => by simpa using h) (fun _ _ h => h)
    (fun _ _ h => h) a s rfl

@[simp] theorem writeString_reg (chars : Word → List Byte) (a : Word) (s : State) (r : RegIx) :
    (writeString chars a s).reg r = s.reg r := by
  simp [State.reg]

/-- A service of strings changes no word of memory but the device cells (R44). -/
theorem writeString_word_of_ne (chars : Word → List Byte) (a : Word) (s : State)
    {b : Word} (h1 : b ≠ s.params.kbsrAddr) (h2 : b ≠ s.params.kbdrAddr) :
    (writeString chars a s).word b = s.word b := by
  obtain ⟨-, e⟩ | ⟨bs, round, -, -, e⟩ := writeString_cases chars a s
  · rw [e]; exact readString_word_of_ne chars _ a s h1 h2
  · rw [e]; rfl

/-- A service of strings only adds to the output (R139). -/
theorem writeString_out (chars : Word → List Byte) (a : Word) (s : State) :
    ∃ bs, (writeString chars a s).out = s.out ++ bs := by
  obtain ⟨-, e⟩ | ⟨bs, round, -, -, e⟩ := writeString_cases chars a s
  · rw [e]; exact readString_out chars _ a s
  · exact ⟨bs, by rw [e]; rfl⟩

/-! ## The dispatcher (R130) -/

/-- Every vector outside the six faults (R137). -/
theorem trapDispatch_unsupported {vect : BitVec 8} (h : serviceVectors.contains vect = false) (instr : Word)
    (s : State) : trapDispatch vect instr s = raiseFault (.unsupportedTrap vect) instr s := by
  simp [serviceVectors] at h
  simp [trapDispatch, h]

end Sys2Proof.Machine
end

