-- ==== Sys2Proof/Laws/Step.lean ====
section
/-! SUPPORT. What a step can do: the inversion lemma every invariant goes through, and the small lemmas of step. -/

namespace Sys2Proof.Machine

/-- Everything a step that answers a next state can be (R80, R168): the host's interruption, one instruction, or the
service left to complete. -/
theorem step_cases {s t : State} (h : step s = .next t) :
    s.run = .running ∧
      ((s.interruptedNow = true ∧ t = s.cancel) ∨
       (s.interruptedNow = false ∧ s.pending = none ∧ exec (decode (fetch s.tick).1) (fetch s.tick).2 = .next t) ∨
       (s.interruptedNow = false ∧ ∃ p, s.pending = some p ∧ t = resume p s.tick)) := by
  unfold step at h
  split at h
  · next hrun =>
    refine ⟨hrun, ?_⟩
    split at h
    · next hi =>
      injection h with h
      exact .inl ⟨hi, h.symm⟩
    · next hi =>
      have hi' : s.interruptedNow = false := by simpa using hi
      unfold advance at h
      rw [State.tick_pending] at h
      split at h
      · next hp => exact .inr (.inl ⟨hi', hp, h⟩)
      · next p hp =>
        injection h with h
        exact .inr (.inr ⟨hi', p, hp, h.symm⟩)
  all_goals cases h

/-- A Running machine that is not interrupted advances. -/
theorem step_running {s : State} (hr : s.run = .running) (hi : s.interruptedNow = false) :
    step s = advance s.tick := by
  simp [step, hr, hi]

/-- A ready machine is not interrupted at this boundary. -/
theorem Ready.interruptedNow {s : State} (h : Ready s) : s.interruptedNow = false := by
  simp [State.interruptedNow, h.2.2]

/-- A ready machine runs the instruction it fetches. -/
theorem step_ready {s : State} (h : Ready s) :
    step s = exec (decode (fetch s.tick).1) (fetch s.tick).2 := by
  rw [step_running h.1 h.interruptedNow, advance, State.tick_pending, h.2.1]

end Sys2Proof.Machine
end

