-- ==== Sys2Proof/Laws/Strings.lean ====
section
/-! SUPPORT. A string that ends is met by `stringBound`; one that does not goes on for ever, in rounds that repeat (R133).
Where reads change nothing (`Settled`) the loop is a walk over fixed words; every round through the memory polls the
keyboard once, so the walk is reached when the host's script is used up. -/

namespace Sys2Proof.Machine

/-! ## Walking over fixed words -/

/-- The characters of `n` words from `a` on, as memory holds them. -/
def textFrom (chars : Word → List Byte) (s : State) : Nat → Word → List Byte
  | 0, _ => []
  | n + 1, a => chars (s.word a) ++ textFrom chars s n (a + 1#16)

/-- A read of any address changes nothing. -/
def Settled (s : State) : Prop := ∀ a, afterRead a s = s

theorem Settled.putBytes {s : State} (h : Settled s) (bs : List Byte) : Settled (putBytes bs s) := fun a => by
  rw [afterRead_putBytes, h a]

theorem add_ofNat_succ (a : Word) (i : Nat) : a + BitVec.ofNat 16 (i + 1) = a + 1#16 + BitVec.ofNat 16 i := by
  rw [Nat.add_comm, BitVec.ofNat_add, BitVec.add_assoc]

@[simp] theorem putBytes_putBytes (b c : List Byte) (s : State) : putBytes c (putBytes b s) = putBytes (b ++ c) s := by
  simp [putBytes, State.setOut]

theorem textFrom_putBytes (chars : Word → List Byte) (bs : List Byte) (s : State) (n : Nat) (a : Word) :
    textFrom chars (putBytes bs s) n a = textFrom chars s n a := by
  induction n generalizing a with
  | zero => rfl
  | succ n ih => simp [textFrom, ih]

/-- Where the reads of `n` words from `a` on change nothing, the loop meets a zero word among them, or passes them all. -/
theorem readString_walk (chars : Word → List Byte) (n : Nat) (a : Word) (s : State)
    (h : ∀ i < n, afterRead (a + BitVec.ofNat 16 i) s = s) :
    (readString chars n a s).1 = none ∨
      (readString chars n a s = (some (a + BitVec.ofNat 16 n), putBytes (textFrom chars s n a) s) ∧
        ∀ i < n, s.word (a + BitVec.ofNat 16 i) ≠ 0#16) := by
  induction n generalizing a s with
  | zero => exact .inr ⟨by simp [readString, textFrom, putBytes, State.setOut], by simp⟩
  | succ n ih =>
    have h0 : afterRead a s = s := by simpa using h 0 (by omega)
    rw [readString_succ, h0]
    split
    · exact .inl rfl
    · next hz =>
      rcases ih (a + 1#16) (putBytes (chars (s.word a)) s) (fun i hi => by
        rw [afterRead_putBytes, ← add_ofNat_succ, h (i + 1) (by omega)]) with e | ⟨e, hw⟩
      · exact .inl e
      · refine .inr ⟨by rw [e, textFrom_putBytes, putBytes_putBytes, textFrom, add_ofNat_succ a n], fun i hi => ?_⟩
        cases i with
        | zero => simpa using hz
        | succ i => rw [add_ofNat_succ]; exact hw i (by omega)

/-- The loop over `m + n` words is the loop over `m`, then over `n` from where that stopped. -/
theorem readString_add (chars : Word → List Byte) (m n : Nat) (a : Word) (s : State) :
    readString chars (m + n) a s =
      match readString chars m a s with
      | (none, t) => (none, t)
      | (some b, t) => readString chars n b t := by
  induction m generalizing a s with
  | zero => simp [readString]
  | succ m ih =>
    rw [Nat.succ_add, readString_succ, readString_succ]
    split
    · rfl
    · exact ih _ _

/-- A loop that passed its words is at the address after them. -/
theorem readString_addr {chars : Word → List Byte} {n : Nat} {a b : Word} {s : State}
    (h : (readString chars n a s).1 = some b) : b = a + BitVec.ofNat 16 n := by
  induction n generalizing a s with
  | zero => simpa [readString] using h.symm
  | succ n ih =>
    rw [readString_succ] at h
    split at h
    · cases h
    · rw [add_ofNat_succ]; exact ih h

/-! ## The endless string -/

/-- Every word is not 0 and no read changes anything: from here on no string ends. -/
def Endless (s : State) : Prop := Settled s ∧ ∀ a, s.word a ≠ 0#16

theorem Endless.putBytes {s : State} (h : Endless s) (bs : List Byte) : Endless (putBytes bs s) :=
  ⟨h.1.putBytes bs, h.2⟩

/-- From an endless state the loop passes every word, and leaves an endless state. -/
theorem Endless.readString {s : State} (h : Endless s) (chars : Word → List Byte) (n : Nat) (a : Word) :
    readString chars n a s = (some (a + BitVec.ofNat 16 n), Machine.putBytes (textFrom chars s n a) s) := by
  induction n generalizing a s with
  | zero => simp [Machine.readString, textFrom, Machine.putBytes, State.setOut]
  | succ n ih =>
    rw [readString_succ, h.1 a, if_neg (h.2 a), ih (h.putBytes _), textFrom_putBytes, putBytes_putBytes, textFrom,
      add_ofNat_succ a n]

/-- A settled state whose words from `a` on a whole round passes is endless. -/
theorem endless_of_round {chars : Word → List Byte} {n : Nat} {a b : Word} {s : State} (h : Settled s)
    (hn : memoryWords ≤ n) (e : (readString chars n a s).1 = some b) : Endless s := by
  rcases readString_walk chars n a s (fun i _ => h _) with e' | ⟨-, hw⟩
  · rw [e'] at e; cases e
  · refine ⟨h, fun k => ?_⟩
    have := hw (k - a).toNat (Nat.lt_of_lt_of_le (k - a).isLt hn)
    rwa [BitVec.ofNat_toNat, BitVec.setWidth_eq, BitVec.add_comm, BitVec.sub_add_cancel] at this

/-! ## The host's script is used up -/

/-- A poll that finds no key ends any string: KBSR then holds 0x0000. -/
theorem pollKeyboard_kbsr_none {s : State} (hm : s.mem.wf = true) (h : (hostPoll s).1 = none) :
    (pollKeyboard s).word s.params.kbsrAddr = 0#16 := by
  have := latchKey_word_kbsr (hostPoll s).1 (s := (hostPoll s).2) (by simpa using hm)
  simp only [pollKeyboard, h]
  rw [h] at this
  by_cases e : s.params.kbsrAddr = s.params.kbdrAddr
  · have := latchKey_word_kbdr none (s := (hostPoll s).2) (by simpa using hm)
    simpa [← e] using this
  · simpa [e] using this (by simpa using e)

/-- After the end of host input a poll leaves what a further poll leaves: the state is settled. -/
theorem settled_of_ended {s : State} (hm : s.mem.wf = true) (h : s.hostIn = .ended) : Settled (pollKeyboard s) := by
  have e : ∀ u : State, u.hostIn = .ended → pollKeyboard u = latchKey u.params.hostEofPoll u := fun u hu => by
    simp [pollKeyboard, hostPoll, hu]
  intro a
  by_cases ha : a = (pollKeyboard s).params.kbsrAddr
  · rw [ha, afterRead_kbsr, e s h, e _ (by simpa using h), latchKey_params]
    have two : ∀ {m : Memory} (k d : Word) (v w : Word), m.wf = true →
        ((((m.set k.toNat v).set d.toNat w).set k.toNat v).set d.toNat w) = ((m.set k.toNat v).set d.toNat w) := by
      intro m k d v w hm
      have w1 := Memory.wf_set hm k.isLt v
      have w2 := Memory.wf_set w1 d.isLt w
      have w3 := Memory.wf_set w2 k.isLt v
      refine Memory.ext_of_wf (Memory.wf_set w3 d.isLt w) w2 fun j => ?_
      rw [Memory.get_set w3, Memory.get_set w2, Memory.get_set w1, Memory.get_set hm]
      split <;> [rfl; (split <;> rfl)]
    cases s.params.hostEofPoll <;> simp [latchKey, memWrite, State.setMem, two _ _ _ _ hm]
  · exact afterRead_of_ne ha

/-- The loop goes on to the next read of KBSR, polls there, and goes on from the address after it; if it passed `n` words,
it passed all of these. -/
theorem readString_to_poll {chars : Word → List Byte} {n : Nat} {a b : Word} {s : State} (hn : memoryWords ≤ n)
    (e : (readString chars n a s).1 = some b) :
    ∃ bs r, n ≤ r + memoryWords ∧ (pollKeyboard s).word s.params.kbsrAddr ≠ 0#16 ∧
      readString chars n a s = readString chars r (s.params.kbsrAddr + 1#16) (putBytes bs (pollKeyboard s)) := by
  have hd : (s.params.kbsrAddr - a).toNat < memoryWords := (s.params.kbsrAddr - a).isLt
  generalize hdd : (s.params.kbsrAddr - a).toNat = d at hd
  have had : a + BitVec.ofNat 16 d = s.params.kbsrAddr := by
    rw [← hdd, BitVec.ofNat_toNat, BitVec.setWidth_eq, BitVec.add_comm, BitVec.sub_add_cancel]
  obtain ⟨r, rfl⟩ : ∃ r, n = d + (r + 1) := ⟨n - d - 1, by omega⟩
  have hpre : ∀ i < d, afterRead (a + BitVec.ofNat 16 i) s = s := fun i hi => afterRead_of_ne fun h => by
    have := congrArg (fun w => (w - a).toNat) h
    have hw : memoryWords = 2 ^ 16 := rfl
    simp only [hdd, BitVec.add_comm a, BitVec.add_sub_cancel, BitVec.toNat_ofNat] at this
    rw [Nat.mod_eq_of_lt (by omega)] at this
    omega
  rw [readString_add] at e ⊢
  rcases readString_walk chars d a s hpre with e' | ⟨e', -⟩
  · generalize readString chars d a s = x at e e'
    obtain ⟨_ | _, _⟩ := x
    · cases e
    · cases e'
  · rw [e', had] at e ⊢
    simp only [readString_succ, afterRead_putBytes, afterRead_kbsr, putBytes_word, putBytes_putBytes] at e ⊢
    split at e
    · cases e
    · next hz => exact ⟨_, r, by omega, hz, by rw [if_neg hz]⟩

/-- A loop that passed as many words as `stringBound` says is left in an endless state. -/
theorem endless_of_bound {chars : Word → List Byte} {n : Nat} {a b : Word} {s : State}
    (hm : s.mem.wf = true) (hn : stringBound s ≤ n) (e : (readString chars n a s).1 = some b) :
    Endless (readString chars n a s).2 := by
  unfold stringBound at hn
  generalize hk : s.hostIn.length = k at hn
  have hw : memoryWords = 65536 := rfl
  induction k generalizing n a s with
  | zero =>
    obtain ⟨bs, r, hr, hz, e'⟩ := readString_to_poll (by omega) e
    have hend : s.hostIn = .ended := by
      cases h : s.hostIn with
      | ended => rfl
      | silent => exact absurd (pollKeyboard_kbsr_none hm (by simp [hostPoll, h])) hz
      | later rest => simp [h, HostInput.length] at hk
      | byte c rest => simp [h, HostInput.length] at hk
    have hs := (settled_of_ended hm hend).putBytes bs
    rw [e'] at e ⊢
    have := endless_of_round hs (by omega) e
    rw [this.readString]
    exact this.putBytes _
  | succ k ih =>
    rw [Nat.mul_add, Nat.mul_add] at hn
    rw [Nat.mul_add] at ih
    obtain ⟨bs, r, hr, hz, e'⟩ := readString_to_poll (by omega) e
    rw [e'] at e ⊢
    refine ih (by simpa using pollKeyboard_wf hm) e ?_ (by omega)
    cases h : s.hostIn with
    | ended => simp [h, HostInput.length] at hk
    | silent => simp [h, HostInput.length] at hk
    | later rest => exact absurd (pollKeyboard_kbsr_none hm (by simp [hostPoll, h])) hz
    | byte c rest => simpa [pollKeyboard, hostPoll, h, HostInput.length] using hk

/-! ## What a service of strings does (R133, R135) -/

theorem textFrom_add (chars : Word → List Byte) (s : State) (m n : Nat) (a : Word) :
    textFrom chars s (m + n) a = textFrom chars s m a ++ textFrom chars s n (a + BitVec.ofNat 16 m) := by
  induction m generalizing a with
  | zero => simp [textFrom]
  | succ m ih => rw [Nat.succ_add, textFrom, textFrom, ih, add_ofNat_succ a m, List.append_assoc]

/-- In an endless state `k` rounds through the memory write the same characters `k` times. -/
theorem textFrom_rounds (chars : Word → List Byte) (s : State) (k : Nat) (a : Word) :
    textFrom chars s (memoryWords * k) a = (List.replicate k (textFrom chars s memoryWords a)).flatten := by
  induction k with
  | zero => rfl
  | succ k ih =>
    rw [Nat.mul_succ, Nat.add_comm, textFrom_add, List.replicate_succ, List.flatten_cons, ← ih,
      show a + BitVec.ofNat 16 memoryWords = a by simp [memoryWords]]

/-- A string that ends ends within the bound: with any more words the loop does the same. -/
theorem readString_of_none {chars : Word → List Byte} {m n : Nat} {a : Word} {s : State}
    (h : (readString chars m a s).1 = none) (hmn : m ≤ n) : readString chars n a s = readString chars m a s := by
  obtain ⟨d, rfl⟩ := Nat.exists_eq_add_of_le hmn
  rw [readString_add]
  generalize readString chars m a s = x at h ⊢
  obtain ⟨_ | _, _⟩ := x
  · rfl
  · cases h

/-- Every string that ends is written in one step (R13): whatever number of words it takes. -/
theorem writeString_of_ends {chars : Word → List Byte} {n : Nat} {a : Word} {s t : State} (hm : s.mem.wf = true)
    (h : readString chars n a s = (none, t)) : writeString chars a s = t := by
  have key : readString chars (stringBound s) a s = (none, t) := by
    rcases Nat.le_total n (stringBound s) with hn | hn
    · rw [readString_of_none (by rw [h]) hn, h]
    · cases e : (readString chars (stringBound s) a s).1 with
      | none => rw [← readString_of_none e hn, h]
      | some b =>
        have hend := endless_of_bound hm (Nat.le_refl _) e
        obtain ⟨d, rfl⟩ := Nat.exists_eq_add_of_le hn
        rw [readString_add] at h
        generalize readString chars (stringBound s) a s = x at h e hend
        obtain ⟨o, u⟩ := x
        cases e
        rw [show u = u from rfl] at h
        have := hend.readString chars d b
        rw [show readString chars d b u = (none, t) from h] at this
        cases this
  simp only [writeString, key]

/-- A string that never ends is written for ever: `bs` first, then `round` over and over, and these are the characters of
the words in order, however many are read. -/
theorem writeString_of_endless {chars : Word → List Byte} {a : Word} {s : State} (hm : s.mem.wf = true)
    (h : ∀ n, (readString chars n a s).1 ≠ none) :
    ∃ bs round, writeString chars a s = (s.setOut (s.out ++ bs)).setPending (some (.endless round)) ∧
      ∀ k, (readString chars (stringBound s + memoryWords * k) a s).2.out =
        s.out ++ (bs ++ (List.replicate k round).flatten) := by
  cases e : readString chars (stringBound s) a s with
  | mk o t =>
    cases o with
    | none => exact absurd (by rw [e]) (h (stringBound s))
    | some b =>
      have hend : Endless t := by
        have := endless_of_bound hm (Nat.le_refl (stringBound s)) (b := b) (a := a) (chars := chars) (by rw [e])
        rwa [e] at this
      obtain ⟨bs, hbs⟩ := readString_out chars (stringBound s) a s
      rw [e] at hbs
      have hround : (readString chars memoryWords b (t.setOut [])).2.out = textFrom chars t memoryWords b := by
        have h0 : Endless (t.setOut []) := ⟨fun c => by rw [afterRead_setOut, hend.1 c], hend.2⟩
        have ht : putBytes t.out (t.setOut []) = t := by simp [putBytes, State.setOut]
        rw [h0.readString, putBytes_out, State.setOut_out, List.nil_append, ← textFrom_putBytes chars t.out, ht]
      refine ⟨bs, textFrom chars t memoryWords b, by simp only [writeString, e, hround]; simp only at hbs; rw [hbs],
        fun k => ?_⟩
      simp only at hbs
      rw [readString_add, e]
      simp only [hend.readString, putBytes_out, textFrom_rounds]
      rw [hbs, List.append_assoc]

end Sys2Proof.Machine
end

