-- ==== Sys2Proof/Tests/Slice0.lean ====
section
/-! SUPPORT. The model's own tests: WellFormed's refusals, words decoded against the spec's encodings, one step per
instruction against spec/95_test_vectors.md (the vector is named in each comment), and for every statement that has
hypotheses a concrete state and operands that meet them. -/

namespace Sys2Proof.Tests

open Sys2Proof.Machine

/-! ## Helpers -/

/-- The reset machine with these registers, PC, COND and listed memory. -/
def at' (pc : Word) (mem : Memory) (regs : Vector Word 8 := Vector.replicate 8 0#16) (cond : Word := flagZ) : State :=
  { State.reset with pc := pc, mem := mem, regs := regs, cond := cond }

/-- One step answers a next state that satisfies `p`. -/
def stepTo (s : State) (p : State → Bool) : Bool :=
  match step s with
  | .next t => p t
  | .fault _ => false
  | .refused _ => false

/-- The next state of a step, or the state itself where there is none. -/
def nextOf (s : State) : State :=
  match step s with
  | .next t => t
  | .fault _ => s
  | .refused _ => s

/-! ## WellFormed: an ill-formed term for each check -/

theorem test_wf_refuses_jmp_r7 : (Instr.jmp 7 0 0).wf = false := by decide
theorem test_wf_refuses_trap_halt_vector : (Instr.trap 0 0x25).wf = false := by decide
theorem test_wf_refuses_trap_getc_vector : (Instr.trap 5 0x20).wf = false := by decide
theorem test_wf_takes_jmp_r6 : (Instr.jmp 6 0 0).wf = true := by decide
theorem test_wf_takes_trap_x26 : (Instr.trap 0 0x26).wf = true := by decide

/-! ## Decoding: words bit by bit from Table 30-3 -/

theorem test_decode_add_reg : decode 0b0001_010_000_0_11_001#16 = .addReg 2 0 1 3 := by decide
theorem test_decode_add_imm : decode 0b0001_001_001_1_11111#16 = .addImm 1 1 0x1F := by decide
theorem test_decode_and_reg : decode 0b0101_011_001_0_00_010#16 = .andReg 3 1 2 0 := by decide
theorem test_decode_and_imm : decode 0b0101_010_001_1_01111#16 = .andImm 2 1 0xF := by decide
theorem test_decode_not : decode 0b1001_001_000_111111#16 = .not 1 0 0x3F := by decide
theorem test_decode_br : decode 0b0000_1_0_1_000000101#16 = .br true false true 5 := by decide
theorem test_decode_jmp : decode 0b1100_101_011_010101#16 = .jmp 3 5 0x15 := by decide
theorem test_decode_ret : decode 0b1100_000_111_000000#16 = .ret 0 0 := by decide
theorem test_decode_jsr : decode 0b0100_1_10000000000#16 = .jsr 0x400 := by decide
theorem test_decode_jsrr : decode 0b0100_0_10_010_000001#16 = .jsrr 2 2 1 := by decide
theorem test_decode_ld : decode 0b0010_010_000000100#16 = .ld 2 4 := by decide
theorem test_decode_ldi : decode 0b1010_011_000000001#16 = .ldi 3 1 := by decide
theorem test_decode_ldr : decode 0b0110_100_001_111111#16 = .ldr 4 1 0x3F := by decide
theorem test_decode_lea : decode 0b1110_000_100000000#16 = .lea 0 0x100 := by decide
theorem test_decode_st : decode 0b0011_111_111111111#16 = .st 7 0x1FF := by decide
theorem test_decode_sti : decode 0b1011_001_000000001#16 = .sti 1 1 := by decide
theorem test_decode_str : decode 0b0111_000_110_000011#16 = .str 0 6 3 := by decide
theorem test_decode_trap : decode 0b1111_0000_00011111#16 = .trap 0 0x1F := by decide
theorem test_decode_getc : decode 0b1111_0000_00100000#16 = .getc 0 := by decide
theorem test_decode_out : decode 0b1111_0000_00100001#16 = .out 0 := by decide
theorem test_decode_puts : decode 0b1111_0000_00100010#16 = .puts 0 := by decide
theorem test_decode_in : decode 0b1111_0000_00100011#16 = .inp 0 := by decide
theorem test_decode_putsp : decode 0b1111_0000_00100100#16 = .putsp 0 := by decide
theorem test_decode_halt : decode 0b1111_1111_00100101#16 = .halt 0xF := by decide
theorem test_decode_rti : decode 0b1000_000000000000#16 = .rti 0 := by decide
theorem test_decode_reserved : decode 0b1101_111111111111#16 = .reserved 0xFFF := by decide
theorem test_encode_add_reg : encode (.addReg 2 0 1 0) = 0x1401#16 := by decide
theorem test_encode_str : encode (.str 0 6 3) = 0x7183#16 := by decide
theorem test_table_word : decodeTableWord 16 0xF025 = some (.halt 0) := by decide

/-! ## Helpers of the spec (L2.1) -/

theorem test_sext9_negative : sext (0x100#9) = 0xFF00#16 := by decide
theorem test_sext11_positive : sext (0x3FF#11) = 0x03FF#16 := by decide
theorem test_zext8 : zext8 0xFF#8 = 0x00FF#16 := by decide
theorem test_setcc_negative : flagOf 0x8000#16 = flagN := by decide
theorem test_setcc_positive : flagOf 0x7FFF#16 = flagP := by decide

/-! ## Operate (L2.2) -/

theorem test_add_wraps : stepTo (at' 0x3000 [(0x3000, 0x1401)] #v[0xFFFF, 1, 0, 0, 0, 0, 0, 0])
    (fun t => t.reg 2 == 0#16 && t.cond == flagZ && t.pc == 0x3001#16) = true := by decide
theorem test_add_doubles : stepTo (at' 0x3000 [(0x3000, 0x16C3)] #v[0, 0, 0, 0x4000, 0, 0, 0, 0])
    (fun t => t.reg 3 == 0x8000#16 && t.cond == flagN) = true := by decide
theorem test_add_imm_minus_16 : stepTo (at' 0x3000 [(0x3000, 0x1270)])
    (fun t => t.reg 1 == 0xFFF0#16 && t.cond == flagN) = true := by decide
theorem test_and_reg : stepTo (at' 0x3000 [(0x3000, 0x5642)] #v[0, 0xF0F0, 0x0FF0, 0, 0, 0, 0, 0])
    (fun t => t.reg 3 == 0x00F0#16 && t.cond == flagP && t.reg 1 == 0xF0F0#16) = true := by decide
theorem test_and_imm_minus_1 : stepTo (at' 0x3000 [(0x3000, 0x547F)] #v[0, 0x8001, 0, 0, 0, 0, 0, 0])
    (fun t => t.reg 2 == 0x8001#16 && t.cond == flagN) = true := by decide
theorem test_not_in_place : stepTo (at' 0x3000 [(0x3000, 0x9000)] #v[0x8000, 0, 0, 0, 0, 0, 0, 0])
    (fun t => t.reg 0 == 0x7FFF#16 && t.cond == flagP) = true := by decide

/-! ## Control (L2.3) -/

theorem test_br_wraps : stepTo (at' 0xFFFF [(0xFFFF, 0x0E01)] (cond := flagP)) (fun t => t.pc == 0x0001#16) = true := by
  decide
theorem test_br_not_taken : stepTo (at' 0x3000 [(0x3000, 0x0805)] (cond := flagP)) (fun t => t.pc == 0x3001#16) = true := by
  decide
theorem test_jmp : stepTo (at' 0x3000 [(0x3000, 0xC000)] #v[0xFFFF, 0, 0, 0, 0, 0, 0, 0])
    (fun t => t.pc == 0xFFFF#16) = true := by decide
theorem test_ret_ignored_bits : stepTo (at' 0x3000 [(0x3000, 0xCFFF)] #v[0, 0, 0, 0, 0, 0, 0, 0x1234])
    (fun t => t.pc == 0x1234#16) = true := by decide
theorem test_jsr_back : stepTo (at' 0x3000 [(0x3000, 0x4C00)])
    (fun t => t.reg 7 == 0x3001#16 && t.pc == 0x2C01#16 && t.cond == flagZ) = true := by decide
theorem test_jsrr_r7 : stepTo (at' 0x3000 [(0x3000, 0x41C0)] #v[0, 0, 0, 0, 0, 0, 0, 0x5000] flagN)
    (fun t => t.reg 7 == 0x3001#16 && t.pc == 0x3001#16 && t.cond == flagN) = true := by decide
theorem test_jsrr_r2 : stepTo (at' 0x3000 [(0x3000, 0x4080)] #v[0, 0, 0x5000, 0, 0, 0, 0, 0])
    (fun t => t.reg 7 == 0x3001#16 && t.pc == 0x5000#16) = true := by decide

/-! ## Loads, stores, LEA (L2.4) -/

theorem test_ld_wraps : stepTo (at' 0xFFF0 [(0x00F0, 0xFFFF), (0xFFF0, 0x20FF)])
    (fun t => t.reg 0 == 0xFFFF#16 && t.cond == flagN && t.pc == 0xFFF1#16) = true := by decide
theorem test_ld_kbsr_polls : stepTo { at' 0xFDFF [(0xFDFF, 0x2000)] with hostIn := .byte 0x6B .silent }
    (fun t => t.reg 0 == 0x8000#16 && t.word 0xFE02#16 == 0x006B#16 && t.hostIn == .silent) = true := by decide
theorem test_ldi_self_pointer : stepTo (at' 0x3000 [(0x3000, 0xA000), (0x3001, 0x3001)])
    (fun t => t.reg 0 == 0x3001#16 && t.cond == flagP) = true := by decide
theorem test_ldi_polls_through_pointer :
    stepTo { at' 0x3000 [(0x3000, 0xA000), (0x3001, 0xFE00)] with hostIn := .byte 0x7A .silent }
      (fun t => t.reg 0 == 0x8000#16 && t.word 0xFE02#16 == 0x007A#16) = true := by decide
theorem test_ldr_base_is_destination : stepTo (at' 0x3000 [(0x3000, 0x6240)] #v[0, 0x4000, 0, 0, 0, 0, 0, 0] flagP)
    (fun t => t.reg 1 == 0#16 && t.cond == flagZ) = true := by decide
theorem test_ldr_offset_minus_32 : stepTo (at' 0x3000 [(0x3000, 0x6060), (0x3FE0, 0x8000)] #v[0, 0x4000, 0, 0, 0, 0, 0, 0])
    (fun t => t.reg 0 == 0x8000#16) = true := by decide
theorem test_lea_does_not_poll : stepTo { at' 0xFDFF [(0xFDFF, 0xE000), (0xFE00, 0x1111)] with hostIn := .byte 1 .silent }
    (fun t => t.reg 0 == 0xFE00#16 && t.cond == flagN && t.word 0xFE00#16 == 0x1111#16) = true := by decide
theorem test_st_own_word : stepTo (at' 0x3000 [(0x3000, 0x31FF)] #v[0xF025, 0, 0, 0, 0, 0, 0, 0] flagN)
    (fun t => t.word 0x3000#16 == 0xF025#16 && t.cond == flagN) = true := by decide
theorem test_sti_overwrites_pointer : stepTo (at' 0x3000 [(0x3000, 0xB000), (0x3001, 0x3001)] #v[0xABCD, 0, 0, 0, 0, 0, 0, 0])
    (fun t => t.word 0x3001#16 == 0xABCD#16) = true := by decide
theorem test_str_wraps : stepTo (at' 0x3000 [(0x3000, 0x707F)] #v[0x00AA, 0, 0, 0, 0, 0, 0, 0])
    (fun t => t.word 0xFFFF#16 == 0x00AA#16) = true := by decide

/-! ## TRAP and faults (L2.5, L2.6) -/

theorem test_getc_zero_extends : stepTo { at' 0x3000 [(0x3000, 0xF020)] with hostIn := .byte 0xFF .silent }
    (fun t => t.reg 0 == 0x00FF#16 && t.cond == flagP && t.out == []) = true := by decide
theorem test_getc_waits : stepTo (at' 0x3000 [(0x3000, 0xF020)])
    (fun t => t.pending == some .getc && t.reg 0 == 0#16 && t.pc == 0x3001#16) = true := by decide
theorem test_out_low_byte : stepTo (at' 0x3000 [(0x3000, 0xF021)] #v[0x1241, 0, 0, 0, 0, 0, 0, 0x1234])
    (fun t => t.out == [0x41] && t.reg 7 == 0x1234#16) = true := by decide
theorem test_puts_wraps :
    stepTo (at' 0x3000 [(0x0000, 0x42), (0x3000, 0xF022), (0xFFFF, 0x41)] #v[0xFFFF, 0, 0, 0, 0, 0, 0, 0])
      (fun t => t.out == [0x41, 0x42] && t.reg 0 == 0xFFFF#16 && t.pending == none) = true := by decide
theorem test_puts_zero_low_byte : stepTo (at' 0x3000 [(0x3000, 0xF022), (0x4000, 0x0100)] #v[0x4000, 0, 0, 0, 0, 0, 0, 0])
    (fun t => t.out == [0x00]) = true := by decide
theorem test_in_echoes :
    stepTo { at' 0x3000 [(0x3000, 0xF023)] with
        hostIn := .byte 0x79 .silent, params := { defaultParams with inPrompt := [0x3E] } }
      (fun t => t.reg 0 == 0x0079#16 && t.cond == flagP && t.out == [0x3E, 0x79]) = true := by decide
theorem test_putsp_packs :
    stepTo (at' 0x3000 [(0x3000, 0xF024), (0x4000, 0x6548), (0x4001, 0x006C)] #v[0x4000, 0, 0, 0, 0, 0, 0, 0])
      (fun t => t.out == [0x48, 0x65, 0x6C]) = true := by decide
theorem test_putsp_zero_low_byte : stepTo (at' 0x3000 [(0x3000, 0xF024), (0x4000, 0x4100)] #v[0x4000, 0, 0, 0, 0, 0, 0, 0])
    (fun t => t.out == [0x00, 0x41]) = true := by decide
theorem test_halt_ignored_bits : stepTo (at' 0x3000 [(0x3000, 0xFF25)])
    (fun t => t.run == .halted && t.pc == 0x3001#16 && t.cond == flagZ) = true := by decide
theorem test_trap_unsupported : stepTo (at' 0x3000 [(0x3000, 0xF01F)])
    (fun t => t.run == .faulted ⟨.unsupportedTrap 0x1F, 0xF01F, 0x3001⟩ && t.out == []) = true := by decide
theorem test_rti : stepTo (at' 0x3005 [(0x3005, 0x8000)])
    (fun t => t.run == .faulted ⟨.reservedOpcode 8, 0x8000, 0x3006⟩ && t.pc == 0x3006#16) = true := by decide
theorem test_reserved : stepTo (at' 0x3000 [(0x3000, 0xDFFF)])
    (fun t => t.run == .faulted ⟨.reservedOpcode 13, 0xDFFF, 0x3001⟩) = true := by decide
theorem test_fetch_from_kbsr : stepTo { at' 0xFE00 [] with hostIn := .byte 0x71 .silent }
    (fun t => t.run == .faulted ⟨.reservedOpcode 8, 0x8000, 0xFE01⟩ && t.word 0xFE02#16 == 0x0071#16) = true := by
  decide
theorem test_no_key_clears_kbdr : stepTo (at' 0xFDFF [(0xFDFF, 0x2000), (0xFE02, 0x0061)])
    (fun t => t.reg 0 == 0#16 && t.cond == flagZ && t.word 0xFE02#16 == 0#16) = true := by decide

/-! ## Boot (L2.7) -/

/-- The images load and the run starts in a state that satisfies `p`. -/
def bootTo (images : List (Option (List Byte))) (p : State → Bool) : Bool :=
  match boot images with
  | .ok s => p s
  | .error _ => false

/-- The images fail to load for this reason. -/
def bootFails (images : List (Option (List Byte))) (e : LoadFailure) : Bool :=
  match boot images with
  | .ok _ => false
  | .error e' => e == e'

theorem test_boot_halt_image : bootTo [some [0x30, 0x00, 0xF0, 0x25]]
    (fun s => s.mem == [(0x3000, 0xF025#16)] && s.pc == 0x3000#16 && s.cond == flagZ) = true := by decide
theorem test_boot_later_image_wins :
    bootTo [some [0x30, 0x00, 0x11, 0x11, 0x22, 0x22], some [0x30, 0x01, 0x33, 0x33]]
      (fun s => s.mem == [(0x3000, 0x1111#16), (0x3001, 0x3333#16)]) = true := by decide
theorem test_boot_top_word : bootTo [some [0xFF, 0xFF, 0x12, 0x34]] (fun s => s.word 0xFFFF#16 == 0x1234#16) = true := by
  decide
theorem test_boot_past_top : bootFails [some [0xFF, 0xFF, 0x12, 0x34, 0x56, 0x78]] .pastTop = true := by decide
theorem test_boot_no_program_word : bootFails [some [0x30, 0x00]] .noProgramWord = true := by decide
theorem test_boot_truncated : bootFails [some [0x30, 0x00, 0xF0]] .truncatedMidWord = true := by decide
theorem test_exit_statuses :
    startStatus [] = some 2 ∧ startStatus [some [0x30, 0x00]] = some 1 ∧ startStatus [none] = some 1 ∧
      exitStatus .halted = some 0 := by decide
theorem test_fault_codes :
    (FaultReason.reservedOpcode 8).code = 1 ∧ (FaultReason.unsupportedTrap 0).code = 2 := by decide
theorem test_boot_nothing_is_reset : boot [] = .ok State.reset := by rfl

/-! ## Witnesses: the hypotheses of each statement are met -/

/-- HALT's word at the start address. -/
def haltState : State := at' 0x3000 [(0x3000, 0xF025)]

/-- A string of one character at 0x4000, and its address in R0. -/
def stringState : State := at' 0x3001 [(0x4000, 0x0041)] #v[0x4000, 0, 0, 0, 0, 0, 0, 0]

/-- A GETC or IN that waits, with this coming input and this countdown to an interruption. -/
def waiting (p : Pending) (h : HostInput) (n : Option Nat) : State :=
  { State.reset with pending := some p, hostIn := h, interruptIn := n }

/-- A poll after the end of input delivers this. -/
def endedWith (key : Option Word) : State :=
  { at' 0xFE00 [] with hostIn := .ended, params := { defaultParams with hostEofPoll := key } }

theorem witness_DecodeOfEncodeIsTheInstruction : (Instr.jmp 6 7 0x3F).wf = true ∧ (Instr.trap 0xF 0x1F).wf = true := by
  decide
theorem witness_FaultingWordsAreExactlyTheIllegalOnes :
    State.reset.run = .running ∧ Illegal 0xF01F#16 ∧ Illegal 0xF026#16 ∧ ¬ Illegal 0xF020#16 ∧ ¬ Illegal 0xF025#16 := by
  decide
theorem witness_IgnoredBitsChangeNothing :
    ¬ Illegal 0x1401#16 ∧ 0x1401#16 &&& usedBits (decode 0x1401#16).form = 0x1419#16 &&& usedBits (decode 0x1401#16).form := by
  decide
theorem witness_StepRunsTheDecodedInstruction :
    Ready haltState ∧ haltState.pc ≠ haltState.params.kbsrAddr ∧ (Instr.halt 0).wf = true ∧
      haltState.word haltState.pc = encode (.halt 0) := by decide
theorem witness_FetchFromKbsrPolls_key :
    let s := { at' 0xFE00 [] with hostIn := .byte 0x71 .silent }
    Ready s ∧ Inv s ∧ s.pc = s.params.kbsrAddr ∧ PollFinds s 0x0071#16 .silent :=
  ⟨by decide, by decide, by decide, .inl ⟨0x71, rfl, by decide⟩⟩
theorem witness_FetchFromKbsrPolls_no_key :
    Ready (at' 0xFE00 []) ∧ Inv (at' 0xFE00 []) ∧ PollFindsNothing (at' 0xFE00 []) .silent ∧
      PollFindsNothing { at' 0xFE00 [] with hostIn := .later .ended } .ended :=
  ⟨by decide, by decide, .inr (.inl ⟨rfl, rfl⟩), .inl rfl⟩
theorem witness_FetchFromKbsrPolls_ended :
    Ready (endedWith none) ∧ Inv (endedWith none) ∧ PollFindsNothing (endedWith none) .ended ∧
      PollFinds (endedWith (some 0xFFFF)) 0xFFFF .ended :=
  ⟨by decide, by decide, .inr (.inr ⟨rfl, rfl, rfl⟩), .inr ⟨rfl, rfl, rfl⟩⟩
theorem witness_OnlyARunningMachineSteps : State.reset.run = .running ∧ (nextOf haltState).run ≠ .running := by decide
theorem witness_ARunEndsInExactlyThreeWays :
    (nextOf haltState).run = .halted ∧
      (nextOf (at' 0x3000 [(0x3000, 0x8000)])).run = .faulted ⟨.reservedOpcode 8, 0x8000, 0x3001⟩ ∧
      (nextOf { State.reset with interruptIn := some 0 }).run = .cancelled := by decide
theorem witness_EveryStepKeepsTheInvariant : Inv haltState ∧ ∃ t, step haltState = .next t := ⟨by decide, _, rfl⟩
theorem witness_EveryRunFromBootKeepsTheInvariant :
    ∃ s t, boot [some [0x30, 0x00, 0xF0, 0x25]] = .ok s ∧ Reaches s t ∧ t.run = .halted :=
  ⟨_, _, rfl, .step (.refl _) rfl, rfl⟩
theorem witness_ExecutionStartsAt3000WithZ : ∃ s, boot [some [0x40, 0x00, 0xF0, 0x25]] = .ok s := ⟨_, rfl⟩
theorem witness_ImageWordsAreLoadedAtTheOrigin :
    Memory.wf [] = true ∧ ([0xFF, 0xFF, 0x12, 0x34] : List Byte).length = 2 + 2 * 1 ∧
      ((([0xFF, 0xFF, 0x12, 0x34] : List Byte).getD 0 0#8).toNat * 256 +
        (([0xFF, 0xFF, 0x12, 0x34] : List Byte).getD 1 0#8).toNat + 1 ≤ 65536) := by decide
theorem witness_ALaterImageIsLoadedOverTheEarlier :
    ∃ s m, boot [some [0x30, 0x00, 0x11, 0x11]] = .ok s ∧ loadImage (some [0x30, 0x00, 0x22, 0x22]) s.mem = .ok m ∧
      loadImage (some [0x30]) s.mem = .error .truncatedMidWord := ⟨_, _, rfl, rfl, rfl⟩
theorem witness_SextWidensTwosComplement : (1 ≤ 1 ∧ 1 ≤ 16) ∧ (0 : Nat) < 16 ∧ (1 ≤ 16 ∧ 16 ≤ 16) := by decide
theorem witness_MemWriteStoresAndDoesNothingElse : haltState.mem.wf = true := by decide
theorem witness_OrdinaryReadsChangeNothing : 0xFE02#16 ≠ State.reset.params.kbsrAddr := by decide
theorem witness_AReadOfKbsrPollsTheKeyboard :
    haltState.mem.wf = true ∧ haltState.params.kbsrAddr ≠ haltState.params.kbdrAddr ∧
      PollFindsNothing haltState .silent ∧
      PollFinds { haltState with hostIn := .byte 0xFF (.later .silent) } 0x00FF#16 (.later .silent) :=
  ⟨by decide, by decide, .inr (.inl ⟨rfl, rfl⟩), .inl ⟨0xFF, rfl, by decide⟩⟩
theorem witness_AStoreIsSeenByTheNextFetch :
    let s := at' 0x3000 [(0x3000, 0x3000)] #v[0xF025, 0, 0, 0, 0, 0, 0, 0]
    Ready s ∧ s.mem.wf = true ∧ s.interruptIn = none ∧ s.pc ≠ s.params.kbsrAddr ∧ s.pc + 1#16 ≠ s.params.kbsrAddr ∧
      s.word s.pc = encode (.st 0 0#9) ∧ (Instr.halt 0).wf = true ∧ s.reg 0 = encode (.halt 0) := by decide
theorem witness_BrBranchesOnAMatchingFlag : oneHot flagZ = true ∧ State.reset.cond = flagZ ∧ State.reset.cond ≠ flagN := by
  decide
theorem witness_JsrrLinksBeforeReadingItsBase : (7#3 : RegIx) = 7#3 ∧ (6#3 : RegIx) ≠ 7#3 := by decide
theorem witness_LdLoadsThePcRelativeWord : pcRel9 4#9 haltState ≠ haltState.params.kbsrAddr := by decide
theorem witness_LdiLoadsThroughThePointer :
    pcRel9 4#9 haltState ≠ haltState.params.kbsrAddr ∧
      haltState.word (pcRel9 4#9 haltState) ≠ haltState.params.kbsrAddr := by decide
theorem witness_LdrLoadsTheBasePlusOffsetWord : baseOff6 1 0x3F#6 haltState ≠ haltState.params.kbsrAddr := by decide
theorem witness_StStoresAtThePcRelativeAddress : haltState.mem.wf = true := by decide
theorem witness_StiStoresThroughThePointer :
    haltState.mem.wf = true ∧ pcRel9 1#9 haltState ≠ haltState.params.kbsrAddr := by decide
theorem witness_StrStoresAtBasePlusOffset : haltState.mem.wf = true := by decide
theorem witness_TrapDispatchesOnItsVector : (0x1F#8).toNat < 0x20 ∧ 0x25 < (0x26#8).toNat ∧ 0x25 < (0xFF#8).toNat := by
  decide
theorem witness_GetcDeliversTheNextByte :
    ({ State.reset with hostIn := .byte 0x00 .silent } : State).hostIn = .byte 0x00 .silent := rfl
theorem witness_InPromptsEchoesAndDelivers :
    ({ State.reset with hostIn := .byte 0xFF .ended } : State).hostIn = .byte 0xFF .ended := rfl
theorem witness_EndOfInputDeliversHostEof : ({ State.reset with hostIn := .ended } : State).hostIn = .ended := rfl
theorem witness_WithoutACharacterGetcAndInWait :
    State.reset.hostIn = .silent ∧ ∃ rest, ({ State.reset with hostIn := .later .ended } : State).hostIn = .later rest :=
  ⟨rfl, _, rfl⟩
theorem witness_AWaitRunsNoOtherInstruction :
    (nextOf (at' 0x3000 [(0x3000, 0xF020)])).pending = some .getc ∧
      (nextOf (at' 0x3000 [(0x3000, 0xF020)])).run = .running ∧
      (nextOf (at' 0x3000 [(0x3000, 0xF020)])).interruptIn = none ∧
      (nextOf (at' 0x3000 [(0x3000, 0xF020)])).hostIn = .silent := by decide
theorem witness_AWaitRunsNoOtherInstruction_countdown :
    (waiting .inp (.byte 0xFF .ended) (some 1)).interruptIn ≠ some 0 ∧
      (waiting .inp (.byte 0xFF .ended) (some 1)).hostIn = .byte 0xFF .ended ∧
      (waiting .getc (.later .silent) (some 2)).interruptIn ≠ some 0 ∧
      (waiting .getc (.later .silent) (some 2)).hostIn = .later .silent ∧
      (waiting .inp .ended none).run = .running ∧ (waiting .inp .ended none).hostIn = .ended := by decide
theorem test_wait_counts_down :
    stepTo (waiting .inp (.byte 0x79 .silent) (some 1)) (fun t => t.out == [0x79] && t.interruptIn == some 0) = true := by
  decide
theorem witness_StringServicesWriteTheString :
    stringState.mem.wf = true ∧
      StringRead putsText (stringState.reg 0) stringState 1 (putsText 0x0041#16 ++ []) stringState ∧
      StringRead putspText (stringState.reg 0) stringState 1 (putspText 0x0041#16 ++ []) stringState :=
  ⟨by decide, .more (by decide) (.stop (by decide)), .more (by decide) (.stop (by decide))⟩
theorem witness_StringServicesWriteTheString_empty : StringRead putsText 0#16 State.reset 0 [] State.reset :=
  .stop (by decide)

/-- Memory with 0x0001 in `n` words from `lo` on. -/
def onesFrom : Nat → Nat → Memory
  | _, 0 => []
  | lo, n + 1 => (lo, 0x0001#16) :: onesFrom (lo + 1) n

theorem onesFrom_get {lo n k : Nat} (h1 : lo ≤ k) (h2 : k < lo + n) : (onesFrom lo n).get k = 0x0001#16 := by
  induction n generalizing lo with
  | zero => omega
  | succ n ih =>
    rw [onesFrom, Memory.get_cons]
    split
    · rfl
    · exact ih (by omega) (by omega)

theorem onesFrom_wf {lo n : Nat} (h : lo + n ≤ 65536) : Memory.wfFrom lo (onesFrom lo n) = true := by
  induction n generalizing lo with
  | zero => rfl
  | succ n ih => simp [onesFrom, Memory.wfFrom, ih (lo := lo + 1) (by omega)]; omega

/-- No word is 0 and the host's input has ended on a key: a PUTS here never ends (R133). -/
def endlessState : State := { endedWith (some 0x0041) with mem := onesFrom 0 65536 }

/-- Every read of such a machine is of a word that is not 0. -/
theorem no_zero_word {chars : Word → List Byte} {a : Word} {s s' : State} {n : Nat} {bs : List Byte} {key : Word}
    (hkey : key ≠ 0#16) (h : StringRead chars a s n bs s') (hm : s.mem.wf = true)
    (hp : s.hostIn = .ended ∧ s.params.hostEofPoll = some key) (hw : ∀ b, s.word b ≠ 0#16) : False := by
  have e : ∀ u : State, u.hostIn = .ended ∧ u.params.hostEofPoll = some key → pollKeyboard u = latchKey (some key) u :=
    fun u hu => by simp [pollKeyboard, hostPoll, hu.1, hu.2]
  have keep : ∀ (u : State) (a : Word), u.mem.wf = true → (u.hostIn = .ended ∧ u.params.hostEofPoll = some key) →
      (∀ b, u.word b ≠ 0#16) → ∀ b, (afterRead a u).word b ≠ 0#16 := fun u a hm hp hw b => by
    unfold afterRead
    split
    · rw [e u hp]
      by_cases h2 : b = u.params.kbdrAddr
      · rw [h2, latchKey_word_kbdr _ hm]; exact hkey
      · by_cases h1 : b = u.params.kbsrAddr
        · rw [h1, latchKey_word_kbsr _ hm (h1 ▸ h2)]; simp
        · rw [latchKey_word_of_ne _ _ h1 h2]; exact hw b
    · exact hw b
  induction h with
  | stop h => exact keep _ _ hm hp hw _ h
  | more _ _ ih =>
    refine ih (afterRead_wf _ hm) ?_ (keep _ _ hm hp hw)
    unfold memRead afterRead
    split
    · simp [e _ hp, hp]
    · exact hp

theorem witness_AnUnendedStringServiceGoesOn :
    endlessState.mem.wf = true ∧ (¬ ∃ n bs s', StringRead putsText (endlessState.reg 0#3) endlessState n bs s') ∧
      ¬ ∃ n bs s', StringRead putspText (endlessState.reg 0#3) endlessState n bs s' := by
  have hm : endlessState.mem.wf = true := onesFrom_wf (lo := 0) (n := 65536) (by omega)
  have hw : ∀ b, endlessState.word b ≠ 0#16 := fun b => by
    rw [State.word, show endlessState.mem = onesFrom 0 65536 from rfl, onesFrom_get (by omega) (by have := b.isLt; omega)]
    decide
  exact ⟨hm, fun ⟨_, _, _, h⟩ => no_zero_word (key := 0x0041) (by decide) h hm ⟨rfl, rfl⟩ hw,
    fun ⟨_, _, _, h⟩ => no_zero_word (key := 0x0041) (by decide) h hm ⟨rfl, rfl⟩ hw⟩
theorem witness_AnUnendedStringServiceGoesOn_step :
    (waiting (.endless [0x41]) .ended (some 0)).run = .running ∧
      (waiting (.endless [0x41]) .ended (some 0)).pending = some (.endless [0x41]) := by decide
theorem witness_AFaultIsPrecise :
    let s := at' 0x3000 [(0x3000, 0xF026)]
    Ready s ∧ s.pc ≠ s.params.kbsrAddr ∧ Illegal (s.word s.pc) := by decide
theorem witness_AHostInterruptionCancelsTheRun :
    let s := { State.reset with interruptIn := some 0, pending := some .inp }
    s.run = .running ∧ s.interruptIn = some 0 ∧ s.pending = some .inp := by decide
theorem witness_RegistersAreWrittenOnlyByTheirWriters : ∃ t, exec (.getc 0) State.reset = .next t := ⟨_, rfl⟩
theorem witness_CondFollowsTheRegisterWritten :
    State.reset.pending = none ∧ callsSetcc (.lea 0 0) = true ∧ callsSetcc (.jsr 0) = false ∧
      (∃ t, exec (.lea 0 0) State.reset = .next t) ∧ ∃ t, exec (.jsr 0) State.reset = .next t :=
  ⟨by decide, by decide, by decide, ⟨_, rfl⟩, ⟨_, rfl⟩⟩
theorem witness_CondIsReadOnlyByBr :
    (∀ n z p off, Instr.lea 0 0 ≠ .br n z p off) ∧ ∃ t, exec (.lea 0 0) State.reset = .next t :=
  ⟨fun _ _ _ _ h => Instr.noConfusion h, _, rfl⟩
theorem witness_ThePcChangesOnlyTheseWays_no_fetch :
    (∃ t, step (waiting (.endless [0x41]) .ended none) = .next t) ∧
      (waiting (.endless [0x41]) .ended none).pending ≠ none ∧
      ∃ t, step { State.reset with interruptIn := some 0 } = .next t ∧ t.run = .cancelled :=
  ⟨⟨_, rfl⟩, by decide, _, rfl, rfl⟩
theorem witness_ThePcChangesOnlyTheseWays : ∃ t, exec (.jsr 0x400) State.reset = .next t := ⟨_, rfl⟩
theorem witness_MemoryChangesOnlyWhereStored :
    (∃ t, exec (.st 0 0) State.reset = .next t) ∧ storeAddress (.st 0 0) State.reset ≠ some 0x3001#16 ∧
      0x3001#16 ≠ State.reset.params.kbsrAddr ∧ 0x3001#16 ≠ State.reset.params.kbdrAddr :=
  ⟨⟨_, rfl⟩, by decide, by decide, by decide⟩
theorem witness_MemoryChangesOnlyWhereStored_no_poll :
    (∃ t, exec (.ld 0 0) State.reset = .next t) ∧ storeAddress (.ld 0 0) State.reset ≠ some 0xFE02#16 ∧
      ¬ ReadsKbsr (.ld 0 0) State.reset ∧ ¬ ReadsKbsr (.puts 0) State.reset := by
  refine ⟨⟨_, rfl⟩, by decide, by unfold ReadsKbsr; decide, fun ⟨k, h1, h2⟩ => ?_⟩
  cases k with
  | zero => exact absurd h1 (by decide)
  | succ k => exact h2 0 (by omega) (by decide)
theorem witness_OutputOnlyGrowsAndOnlyByServices :
    (∃ t, step haltState = .next t) ∧ (∃ t, exec (.lea 0 0) State.reset = .next t) ∧
      writesOutput (.lea 0 0) = false := ⟨⟨_, rfl⟩, ⟨_, rfl⟩, by decide⟩

end Sys2Proof.Tests
end

section
/-! PROOFS. Scope and notation (spec/00_scope.md): sign and zero extension (R11) and `setcc` (R10). -/

namespace Sys2Proof.Machine

/-! ## Sign and zero extension, as bits and as numbers (R11) -/

/-- Below the field's width the field's own bit, above it the sign bit. -/
theorem getLsbD_sext {n i : Nat} (v : BitVec n) (hi : i < 16) :
    (sext v).getLsbD i = if i < n then v.getLsbD i else v.getLsbD (n - 1) := by
  rw [sext, BitVec.getLsbD_signExtend, BitVec.msb_eq_getLsbD_last, decide_eq_true hi, Bool.true_and]

/-- A field whose sign bit is clear keeps its number; one whose sign bit is set goes up by `2^16 - 2^n`. -/
theorem toNat_sext {n : Nat} (v : BitVec n) (hn : n ≤ 16) :
    (sext v).toNat = if v.toNat < 2 ^ (n - 1) then v.toNat else v.toNat + 2 ^ 16 - 2 ^ n := by
  have hpow : 2 ^ n ≤ 2 ^ 16 := Nat.pow_le_pow_right (by decide) hn
  rw [sext, BitVec.toNat_signExtend, BitVec.toNat_setWidth_of_le hn, BitVec.msb_eq_decide]
  by_cases hv : v.toNat < 2 ^ (n - 1)
  · simp [hv]
  · rw [if_neg hv, if_pos (decide_eq_true (Nat.le_of_not_lt hv)), Nat.add_sub_assoc hpow]

/-- Below the field's width the field's own bit, above it zero. -/
theorem getLsbD_zext {n i : Nat} (v : BitVec n) (hi : i < 16) :
    (zext v).getLsbD i = if i < n then v.getLsbD i else false := by
  by_cases hn : i < n
  · simp [zext, hi, hn]
  · simp [zext, hn, BitVec.getLsbD_of_ge v i (Nat.le_of_not_lt hn)]

/-- Zero extension keeps the field's number. -/
theorem toNat_zext {n : Nat} (v : BitVec n) (hn : n ≤ 16) : (zext v).toNat = v.toNat :=
  BitVec.toNat_setWidth_of_le hn

/-- Settles O19, for every width: the bits and the number of each extension; `zext8` is `zext` at width 8. -/
theorem sextWidensTwosComplement : Obligations.SextWidensTwosComplement :=
  ⟨fun _ v _ hn => ⟨fun _ hi => getLsbD_sext v hi, toNat_sext v hn⟩,
    fun _ v _ hn => ⟨fun _ hi => getLsbD_zext v hi, toNat_zext v hn⟩,
    fun _ => rfl⟩

/-! ## The flag of a word (R10), by the word's number -/

theorem flagOf_of_toNat_eq_zero {v : Word} (h : v.toNat = 0) : flagOf v = flagZ :=
  if_pos (BitVec.eq_of_toNat_eq h)

/-- From `0x8000` on bit 15 is set, and the word is not zero. -/
theorem flagOf_of_le_toNat {v : Word} (h : 0x8000 ≤ v.toNat) : flagOf v = flagN := by
  have hne : v ≠ 0#16 := by rintro rfl; contradiction
  have hmsb : v.msb = true := BitVec.msb_eq_true_iff_two_mul_ge.2 (by omega)
  rw [flagOf, if_neg hne, if_pos hmsb]

/-- Between zero and `0x8000` the word is not zero and bit 15 is clear. -/
theorem flagOf_of_toNat_between {v : Word} (h0 : 0 < v.toNat) (h : v.toNat < 0x8000) : flagOf v = flagP := by
  have hne : v ≠ 0#16 := by rintro rfl; contradiction
  have hmsb : ¬ v.msb = true := fun hm => by
    have := BitVec.msb_eq_true_iff_two_mul_ge.1 hm
    omega
  rw [flagOf, if_neg hne, if_neg hmsb]

/-- `flagOf` is the flag the word calls for. -/
theorem flagFor_flagOf (v : Word) : FlagFor v (flagOf v) :=
  ⟨flagOf_of_toNat_eq_zero, flagOf_of_le_toNat, flagOf_of_toNat_between⟩

/-! ## `setcc`: COND, nothing else -/

@[simp] theorem setcc_cond (v : Word) (s : State) : (setcc v s).cond = flagOf v := rfl
@[simp] theorem setcc_pc (v : Word) (s : State) : (setcc v s).pc = s.pc := rfl

theorem setcc_sameRegs (v : Word) (s : State) : SameRegsBut [] s (setcc v s) := fun r _ => State.reg_setCond s _ r
theorem setcc_sameMem (v : Word) (s : State) : SameMemBut [] s (setcc v s) := fun a _ => State.word_setCond s _ a
theorem setcc_sameHost (v : Word) (s : State) : SameHost s (setcc v s) := ⟨rfl, rfl, rfl⟩
theorem setcc_sameRun (v : Word) (s : State) : SameRun s (setcc v s) := ⟨rfl, rfl, rfl, rfl⟩

/-- Settles O20: the flag by the word's range, and the frame of `setcc`. -/
theorem setccChoosesTheFlagOfTheWord : Obligations.SetccChoosesTheFlagOfTheWord := by
  intro v s
  rw [setcc_cond, setcc_pc]
  exact ⟨flagFor_flagOf v, oneHot_flagOf v, setcc_sameRegs v s, setcc_sameMem v s, rfl, setcc_sameHost v s,
    setcc_sameRun v s⟩

end Sys2Proof.Machine
end

section
/-! PROOFS. The state (spec/10_state.md): what an instruction can do to it, once for all 26 of them (`Effect`), and
from that the invariant, the writers of the registers, COND and the PC, and the readers of COND. -/

namespace Sys2Proof.Machine

/-! ## Transactions: device reads, characters read, bytes written -/

/-- `t` is `s` after zero or more transactions with the devices and the host (Table 00-3): reads through the device
decoder (R43, R44), reads of a character (R138), bytes written (R139). -/
inductive Transacts (s : State) : State → Prop
  | refl : Transacts s s
  | read {t : State} (a : Word) : Transacts s t → Transacts s (afterRead a t)
  | getChar {t : State} : Transacts s t → Transacts s (hostGetChar t).2
  | put {t : State} (bs : List Byte) : Transacts s t → Transacts s (putBytes bs t)

section
variable {s t : State}

theorem Transacts.regs (h : Transacts s t) : t.regs = s.regs := by induction h <;> simp [*]
theorem Transacts.pc (h : Transacts s t) : t.pc = s.pc := by induction h <;> simp [*]
theorem Transacts.cond (h : Transacts s t) : t.cond = s.cond := by induction h <;> simp [*]
theorem Transacts.run (h : Transacts s t) : t.run = s.run := by induction h <;> simp [*]
theorem Transacts.pending (h : Transacts s t) : t.pending = s.pending := by induction h <;> simp [*]
theorem Transacts.params (h : Transacts s t) : t.params = s.params := by induction h <;> simp [*]

theorem Transacts.reg (h : Transacts s t) (r : RegIx) : t.reg r = s.reg r := by simp [State.reg, h.regs]

theorem Transacts.wf (h : Transacts s t) (hs : s.mem.wf = true) : t.mem.wf = true := by
  induction h with
  | refl => exact hs
  | read a _ ih => exact afterRead_wf a ih
  | getChar _ ih => simpa using ih
  | put bs _ ih => exact ih

end

theorem Transacts.readString (chars : Word → List Byte) (n : Nat) (a : Word) (s : State) :
    Transacts s (readString chars n a s).2 :=
  readString_keeps chars (fun a _ h => h.read a) (fun bs _ h => h.put bs) n a s .refl

/-! ## A service under way -/

/-- A service under way ends with a character in R0 and its flag in COND, or goes on (R131, R134, R138; log 20, log 21). -/
def EndsOrGoesOn (s : State) (p : Pending) (t : State) : Prop :=
  ∃ u, Transacts s u ∧ ((∃ c, t = (writeReg trapReg c u).setPending none) ∨ t = u.setPending (some p))

theorem getcAttempt_endsOrGoesOn (s : State) : EndsOrGoesOn s .getc (getcAttempt s) := by
  obtain ⟨c, -, e⟩ | ⟨-, e⟩ := getcAttempt_cases s
  · exact ⟨_, .getChar .refl, .inl ⟨c, e⟩⟩
  · exact ⟨_, .getChar .refl, .inr e⟩

/-- The prompt may have been written before the attempt (`serviceIn`), or in an earlier step (`resume`). -/
theorem inAttempt_endsOrGoesOn {s u : State} (h : Transacts s u) : EndsOrGoesOn s .inp (inAttempt u) := by
  obtain ⟨c, -, e⟩ | ⟨-, e⟩ := inAttempt_cases u
  · exact ⟨_, h.getChar.put [lowByte c], .inl ⟨c, e⟩⟩
  · exact ⟨_, h.getChar, .inr e⟩

theorem resume_endsOrGoesOn {p : Pending} {s : State} (hp : s.pending = some p) : EndsOrGoesOn s p (resume p s) := by
  cases p with
  | getc => exact getcAttempt_endsOrGoesOn s
  | inp => exact inAttempt_endsOrGoesOn .refl
  | endless round =>
    refine ⟨putBytes round s, .put round .refl, .inr ?_⟩
    rw [← hp]; rfl

/-! ## What an instruction can do -/

/-- The instructions that write the PC (R25). -/
def writesPc : Instr → Bool
  | .br .. | .jmp .. | .ret .. | .jsr .. | .jsrr .. => true
  | _ => false

/-- Everything `exec` can make of the state after the fetch, by the operation the instruction's meaning ends in; `u` is
the state the transactions before it left. -/
inductive Effect (i : Instr) (s : State) : State → Prop
  /-- Operate, load and LEA: the register and COND. -/
  | result {u : State} (dr : RegIx) (v : Word) : writtenRegs i = [dr] → callsSetcc i = true → Transacts s u →
      Effect i s (writeReg dr v u)
  /-- Store. -/
  | store {u : State} (a v : Word) : callsSetcc i = false → Transacts s u → Effect i s (memWrite a v u)
  /-- BR, JMP and RET. -/
  | jump (v : Word) : callsSetcc i = false → writesPc i = true → Effect i s (s.setPc v)
  /-- JSR and JSRR. -/
  | call (v : Word) : writtenRegs i = [linkReg] → callsSetcc i = false → writesPc i = true →
      Effect i s ((link s).setPc v)
  /-- GETC and IN with a character. -/
  | char {u : State} (c : Word) : writtenRegs i = [trapReg] → callsSetcc i = true → Transacts s u →
      Effect i s ((writeReg trapReg c u).setPending none)
  /-- A service whose step does not complete (log 20, log 21). -/
  | goesOn {u : State} (p : Pending) : Transacts s u → Effect i s (u.setPending (some p))
  /-- OUT, and a string that ends. -/
  | output {u : State} : callsSetcc i = false → Transacts s u → Effect i s u
  /-- HALT. -/
  | halt {u : State} : callsSetcc i = false → Transacts s u → Effect i s (u.setRun .halted)
  /-- RTI, opcode 1101 and an unsupported vector. -/
  | fault (reason : FaultReason) (instr : Word) : callsSetcc i = false → Effect i s (raiseFault reason instr s)

section
variable {i : Instr} {s : State}

theorem EndsOrGoesOn.effect {p : Pending} {t : State} (h : EndsOrGoesOn s p t) (hw : writtenRegs i = [trapReg])
    (hc : callsSetcc i = true) : Effect i s t := by
  obtain ⟨u, hu, ⟨c, rfl⟩ | rfl⟩ := h
  · exact .char c hw hc hu
  · exact .goesOn p hu

theorem effect_writeString (chars : Word → List Byte) (a : Word) (hc : callsSetcc i = false) :
    Effect i s (writeString chars a s) := by
  obtain ⟨-, e⟩ | ⟨bs, round, -, -, e⟩ := writeString_cases chars a s <;> rw [e]
  · exact .output hc (.readString chars _ a s)
  · exact .goesOn (.endless round) (.put bs .refl)

/-- A TRAP word, or a service's own term for it, does what its vector says (R130). -/
theorem effect_trapDispatch (vect : BitVec 8) (instr : Word) (hw : writtenRegs i = writtenRegs (.trap 0 vect))
    (hc : callsSetcc i = callsSetcc (.trap 0 vect)) : Effect i s (trapDispatch vect instr s) := by
  unfold trapDispatch
  split
  · next h => subst h; exact (getcAttempt_endsOrGoesOn s).effect hw hc
  split
  · next h => subst h; exact .output hc (.put _ .refl)
  split
  · next h => subst h; exact effect_writeString _ _ hc
  split
  · next h => subst h; exact (inAttempt_endsOrGoesOn (.put _ .refl)).effect hw hc
  split
  · next h => subst h; exact effect_writeString _ _ hc
  split
  · next h => subst h; exact .halt hc (.put _ .refl)
  · next hgetc _ _ hin _ _ =>
    have hw' : writtenRegs (.trap 0 vect) = [] := if_neg (not_or.2 ⟨hgetc, hin⟩)
    exact .fault _ _ (hc.trans (congrArg (fun rs : List RegIx => !rs.isEmpty) hw'))

end

/-- Every instruction answers a next state: none is refused, and none stops the machine (R162). -/
theorem exec_next (i : Instr) (s : State) : ∃ t, exec i s = .next t := by
  cases i <;> exact ⟨_, rfl⟩

/-- The inversion of `exec` (R81). -/
theorem exec_effect {i : Instr} {s t : State} (h : exec i s = .next t) : Effect i s t := by
  cases i with
  | addReg dr | addImm dr | andReg dr | andImm dr | not dr | lea dr => cases h; exact .result dr _ rfl rfl .refl
  | ld dr | ldr dr => cases h; exact .result dr _ rfl rfl (.read _ .refl)
  | ldi dr => cases h; exact .result dr _ rfl rfl (.read _ (.read _ .refl))
  | st | str => cases h; exact .store _ _ rfl .refl
  | sti => cases h; exact .store _ _ rfl (.read _ .refl)
  | br n z p off =>
    cases h
    split
    · exact .jump _ rfl rfl
    · exact .jump s.pc rfl rfl
  | jmp | ret => cases h; exact .jump _ rfl rfl
  | jsr | jsrr => cases h; exact .call _ rfl rfl rfl
  | trap ign vect => cases h; exact effect_trapDispatch vect _ rfl rfl
  | getc => cases h; exact effect_trapDispatch vecGetc 0 rfl rfl
  | out => cases h; exact effect_trapDispatch vecOut 0 rfl rfl
  | puts => cases h; exact effect_trapDispatch vecPuts 0 rfl rfl
  | inp => cases h; exact effect_trapDispatch vecIn 0 rfl rfl
  | putsp => cases h; exact effect_trapDispatch vecPutsp 0 rfl rfl
  | halt => cases h; exact effect_trapDispatch vecHalt 0 rfl rfl
  | rti | reserved => cases h; exact .fault _ _ rfl

/-! ## The invariant: one lemma per operation -/

section
variable {s t : State}

theorem Inv.transacts (hs : Inv s) (h : Transacts s t) : Inv t := by
  obtain ⟨hm, hc, hd, hp⟩ := hs
  refine ⟨h.wf hm, ?_⟩
  rw [h.cond, h.params, h.pending, h.run]
  exact ⟨hc, hd, hp⟩

theorem Inv.setPc (hs : Inv s) (v : Word) : Inv (s.setPc v) := hs

theorem Inv.writeReg (hs : Inv s) (r : RegIx) (v : Word) : Inv (writeReg r v s) :=
  have ⟨hm, _, hrest⟩ := hs
  ⟨hm, oneHot_flagOf v, hrest⟩

theorem Inv.memWrite (hs : Inv s) (a v : Word) : Inv (memWrite a v s) := ⟨memWrite_wf hs.1 a v, hs.2⟩

/-- The run may end where no service is left to complete. -/
theorem Inv.setRun (hs : Inv s) (r : RunState) (hp : s.pending = none) : Inv (s.setRun r) := by
  obtain ⟨hm, hc, hd, -⟩ := hs
  exact ⟨hm, hc, hd, fun h => absurd hp h⟩

/-- A service may be left to complete while the machine is Running. -/
theorem Inv.setPending (hs : Inv s) (p : Option Pending) (hr : p ≠ none → s.run = .running) :
    Inv (s.setPending p) := by
  obtain ⟨hm, hc, hd, -⟩ := hs
  exact ⟨hm, hc, hd, hr⟩

theorem Inv.cancel (hs : Inv s) : Inv s.cancel := by
  obtain ⟨hm, hc, hd, -⟩ := hs
  exact ⟨hm, hc, hd, fun h => absurd rfl h⟩

theorem Inv.tick (hs : Inv s) : Inv s.tick := by
  obtain ⟨n, e⟩ := s.tick_eq
  rw [e]; exact hs

theorem Inv.fetch (hs : Inv s) : Inv (fetch s).2 := by
  rw [fetch_snd]
  exact (hs.transacts (.read s.pc .refl)).setPc _

/-- An instruction a Running machine executes keeps the invariant. -/
theorem Inv.exec {i : Instr} (hs : Inv s) (hr : s.run = .running) (hp : s.pending = none)
    (h : exec i s = .next t) : Inv t := by
  cases exec_effect h with
  | result dr v _ _ hu => exact (hs.transacts hu).writeReg dr v
  | store a v _ hu => exact (hs.transacts hu).memWrite a v
  | jump | call => exact hs
  | char c _ _ hu => exact ((hs.transacts hu).writeReg trapReg c).setPending none (absurd rfl)
  | goesOn p hu => exact (hs.transacts hu).setPending _ fun _ => hu.run.trans hr
  | output _ hu => exact hs.transacts hu
  | halt _ hu => exact (hs.transacts hu).setRun _ (hu.pending.trans hp)
  | fault => exact hs.setRun _ hp

/-- A service under way keeps the invariant, ended or not. -/
theorem Inv.resume {p : Pending} (hs : Inv s) (hr : s.run = .running) (hp : s.pending = some p) :
    Inv (resume p s) := by
  obtain ⟨u, hu, ⟨c, e⟩ | e⟩ := resume_endsOrGoesOn hp <;> rw [e]
  · exact ((hs.transacts hu).writeReg trapReg c).setPending none (absurd rfl)
  · exact (hs.transacts hu).setPending _ fun _ => hu.run.trans hr

end

/-- Settles O11: by the three things a step can be. -/
theorem everyStepKeepsTheInvariant : Obligations.EveryStepKeepsTheInvariant := by
  intro s t hs h
  obtain ⟨hr, ⟨-, rfl⟩ | ⟨-, hp, he⟩ | ⟨-, p, hp, rfl⟩⟩ := step_cases h
  · exact hs.cancel
  · exact hs.tick.fetch.exec (by simpa using hr) (by simpa using hp) he
  · exact hs.tick.resume (by simpa using hr) (by simpa using hp)

/-! ## When there is a step (R80) -/

/-- Settles O9: a Running machine is interrupted, executes an instruction (`exec_next`) or goes on with a service. -/
theorem onlyARunningMachineSteps : Obligations.OnlyARunningMachineSteps := by
  refine fun s => ⟨fun ⟨t, h⟩ => (step_cases h).1, fun hr => ?_⟩
  cases hi : s.interruptedNow with
  | true => exact ⟨s.cancel, by simp [step, hr, hi]⟩
  | false =>
    rw [step_running hr hi, advance]
    cases s.tick.pending with
    | none => exact exec_next _ _
    | some p => exact ⟨resume p s.tick, rfl⟩

/-! ## Boot (R180 to R184) and the states a run reaches -/

theorem loadWords_wf {mem : Memory} {origin : Nat} {ws : List Word} (hm : mem.wf = true)
    (h : origin + ws.length ≤ 65536) : (loadWords mem origin ws).wf = true := by
  induction ws generalizing mem origin with
  | nil => exact hm
  | cons w ws ih =>
    rw [List.length_cons] at h
    exact ih (Memory.wf_set hm (by omega) w) (by omega)

theorem loadImageWords_wf {mem mem' : Memory} {ws : List Word} (hm : mem.wf = true)
    (h : loadImageWords mem ws = .ok mem') : mem'.wf = true := by
  unfold loadImageWords at h
  split at h
  · cases h
  · cases h
  · split at h
    · cases h
    · next hlen =>
      cases h
      exact loadWords_wf hm (Nat.le_of_not_lt hlen)

theorem loadImage_wf {image : Option (List Byte)} {mem mem' : Memory} (hm : mem.wf = true)
    (h : loadImage image mem = .ok mem') : mem'.wf = true := by
  unfold loadImage at h
  split at h
  · cases h
  · split at h
    · cases h
    · exact loadImageWords_wf hm h

theorem loadImages_wf {images : List (Option (List Byte))} {mem mem' : Memory} (hm : mem.wf = true)
    (h : loadImages images mem = .ok mem') : mem'.wf = true := by
  induction images generalizing mem with
  | nil => cases h; exact hm
  | cons image images ih =>
    rw [loadImages] at h
    split at h
    · cases h
    · next mem₁ h₁ => exact ih (loadImage_wf hm h₁) h

/-- A boot that starts a run leaves the reset machine with the images in its memory. -/
theorem boot_ok {images : List (Option (List Byte))} {s : State} (h : boot images = .ok s) :
    ∃ mem, loadImages images [] = .ok mem ∧ s = State.reset.setMem mem := by
  unfold boot PreStart.load at h
  split at h
  · cases h
  · next p hp =>
    split at hp
    · cases hp
    · next mem hmem =>
      cases hp
      cases h
      exact ⟨mem, hmem, rfl⟩

theorem Inv.boot {images : List (Option (List Byte))} {s : State} (h : boot images = .ok s) : Inv s := by
  obtain ⟨mem, hmem, rfl⟩ := boot_ok h
  have hdevices : defaultKbsrAddr ≠ defaultKbdrAddr := by decide
  exact ⟨loadImages_wf rfl hmem, rfl, hdevices, absurd rfl⟩

/-- What every step keeps, every run keeps. -/
theorem Reaches.keeps {P : State → Prop} (hstep : ∀ s t, P s → Steps s t → P t) {s t : State} (h : Reaches s t)
    (hs : P s) : P t := by
  induction h with
  | refl => exact hs
  | step _ h ih => exact hstep _ _ ih h

/-- Settles O13: boot meets the invariant, and every step keeps it. -/
theorem everyRunFromBootKeepsTheInvariant : Obligations.EveryRunFromBootKeepsTheInvariant :=
  fun _ _ _ hboot h => h.keeps everyStepKeepsTheInvariant (Inv.boot hboot)

/-! ## PUTS and PUTSP -/

/-- The frame of a service of strings, whatever characters it writes and however its string goes on. -/
theorem writeString_frame (chars : Word → List Byte) (a : Word) (s : State) :
    (∃ bs, (writeString chars a s).out = s.out ++ bs) ∧ SameRegsBut [] s (writeString chars a s) ∧
      (writeString chars a s).cond = s.cond ∧
      SameMemBut [s.params.kbsrAddr, s.params.kbdrAddr] s (writeString chars a s) ∧
      (writeString chars a s).pc = s.pc ∧ (writeString chars a s).run = s.run ∧
      (writeString chars a s).params = s.params ∧ (writeString chars a s).interruptIn = s.interruptIn := by
  refine ⟨writeString_out chars a s, fun r _ => writeString_reg chars a s r, writeString_cond chars a s,
    fun b hb => ?_, writeString_pc chars a s, writeString_run chars a s, writeString_params chars a s,
    writeString_interruptIn chars a s⟩
  rw [List.mem_pair, not_or] at hb
  exact writeString_word_of_ne chars a s hb.1 hb.2

/-- Settles O48: PUTS and PUTSP are one service of strings, with two ways to write a word. -/
theorem stringServicesChangeOnlyOutputAndDeviceCells :
    Obligations.StringServicesChangeOnlyOutputAndDeviceCells := by
  rintro s ign i (rfl | rfl)
  · exact ⟨_, rfl, writeString_frame putsChars (s.reg trapReg) s⟩
  · exact ⟨_, rfl, writeString_frame putspChars (s.reg trapReg) s⟩

/-! ## Who writes the registers, COND and the PC -/

section
variable {i : Instr} {s t : State}

theorem Effect.sameRegsBut (h : Effect i s t) : SameRegsBut (writtenRegs i) s t := by
  intro r hr
  cases h with
  | result dr v hw _ hu =>
    rw [hw, List.mem_singleton] at hr
    rw [writeReg_reg, if_neg hr, hu.reg]
  | char c hw _ hu =>
    rw [hw, List.mem_singleton] at hr
    rw [State.reg_setPending, writeReg_reg, if_neg hr, hu.reg]
  | call v hw =>
    rw [hw, List.mem_singleton] at hr
    exact s.reg_setReg_of_ne _ hr
  | store _ _ _ hu | goesOn _ hu | output _ hu | halt _ hu => exact hu.reg r
  | jump | fault => rfl

/-- Settles O54, by `Effect.sameRegsBut`. -/
theorem registersAreWrittenOnlyByTheirWriters : Obligations.RegistersAreWrittenOnlyByTheirWriters :=
  fun _ _ _ h => (exec_effect h).sameRegsBut

/-- Only a caller of `setcc` changes COND. -/
theorem Effect.cond_of_not_callsSetcc (h : Effect i s t) (hi : callsSetcc i = false) : t.cond = s.cond := by
  cases h with
  | result _ _ _ hc | char _ _ hc => rw [hc] at hi; cases hi
  | store _ _ _ hu | goesOn _ hu | output _ hu | halt _ hu => exact hu.cond
  | jump | call | fault => rfl

theorem writeReg_flagFor (r : RegIx) (v : Word) (s : State) :
    FlagFor ((writeReg r v s).reg r) (writeReg r v s).cond := by
  rw [writeReg_reg_self]
  exact flagFor_flagOf v

/-- A caller of `setcc` leaves the flag of the register it wrote, or goes on with COND as it was. -/
theorem Effect.cond_of_callsSetcc (h : Effect i s t) (hi : callsSetcc i = true) (hp : s.pending = none) :
    (t.pending = none ∧ ∀ r ∈ writtenRegs i, FlagFor (t.reg r) t.cond) ∨
      (t.pending ≠ none ∧ t.cond = s.cond) := by
  cases h with
  | result dr v hw _ hu =>
    refine .inl ⟨hu.pending.trans hp, ?_⟩
    rw [hw]; exact List.forall_mem_singleton.2 (writeReg_flagFor dr v _)
  | char c hw _ _ =>
    refine .inl ⟨rfl, ?_⟩
    rw [hw]; exact List.forall_mem_singleton.2 (writeReg_flagFor trapReg c _)
  | goesOn p hu => exact .inr ⟨nofun, hu.cond⟩
  | store _ _ hc | jump _ hc | call _ _ hc | output hc | halt hc | fault _ _ hc => rw [hc] at hi; cases hi

/-- Settles O55, by the two lemmas on COND above. -/
theorem condFollowsTheRegisterWritten : Obligations.CondFollowsTheRegisterWritten :=
  fun _ _ _ h => ⟨(exec_effect h).cond_of_not_callsSetcc, (exec_effect h).cond_of_callsSetcc⟩

theorem Effect.pc_of_not_writesPc (h : Effect i s t) (hi : writesPc i = false) : t.pc = s.pc := by
  cases h with
  | jump _ _ hc | call _ _ _ hc => rw [hc] at hi; cases hi
  | result _ _ _ _ hu | store _ _ _ hu | char _ _ _ hu | goesOn _ hu | output _ hu | halt _ hu => exact hu.pc
  | fault => rfl

/-- No instruction ends the run as the host does. -/
theorem Effect.run_ne_cancelled (h : Effect i s t) (hs : s.run ≠ .cancelled) : t.run ≠ .cancelled := by
  cases h with
  | result _ _ _ _ hu | store _ _ _ hu | char _ _ _ hu | goesOn _ hu | output _ hu => rwa [← hu.run] at hs
  | jump | call => exact hs
  | halt | fault => nofun

end

theorem resume_pc {p : Pending} {s : State} (hp : s.pending = some p) : (resume p s).pc = s.pc := by
  obtain ⟨u, hu, ⟨c, e⟩ | e⟩ := resume_endsOrGoesOn hp <;> rw [e] <;> exact hu.pc

/-- The target of BR, JSR and the loads is the base plus the two's-complement offset (R9, R11). -/
theorem add_sext_eq_addSigned {n : Nat} (base : Word) (off : BitVec n) : base + sext off = addSigned base off := by
  rw [addSigned, BitVec.ofInt_add, BitVec.ofInt_natCast, BitVec.ofNat_toNat, BitVec.setWidth_eq]
  rfl

/-- R25's first way: the fetch increments the PC modulo 2^16. -/
theorem fetch_pc_toNat (s : State) : (fetch s).2.pc.toNat = (s.pc.toNat + 1) % 65536 := by
  rw [fetch_snd, State.setPc_pc, BitVec.toNat_add]
  rfl

/-- A step that fetches nothing leaves the PC: a service goes on, or the host ends the run. -/
theorem step_pc_of_no_fetch {s t : State} (h : step s = .next t) (hno : s.pending ≠ none ∨ t.run = .cancelled) :
    t.pc = s.pc := by
  obtain ⟨hr, ⟨-, rfl⟩ | ⟨-, hp, he⟩ | ⟨-, p, hp, rfl⟩⟩ := step_cases h
  · rfl
  · have hrun : (fetch s.tick).2.run ≠ .cancelled := by simp [hr]
    exact absurd hno (not_or.2 ⟨not_not.2 hp, (exec_effect he).run_ne_cancelled hrun⟩)
  · rw [resume_pc (by simpa using hp), State.tick_pc]

/-- JSRR reads its base after the write of R7 (R103). -/
theorem link_reg (base : RegIx) (s : State) : (link s).reg base = if base = 7#3 then s.pc else s.reg base :=
  s.reg_setReg linkReg base s.pc

/-- BR's two ways on (R100). -/
theorem branch_pc (taken : Bool) (off : BitVec 9) (s : State) :
    (if taken then s.setPc (pcRel9 off s) else s).pc = if taken then addSigned s.pc off else s.pc := by
  cases taken
  · rfl
  · exact add_sext_eq_addSigned s.pc off

/-- Settles O57: the five instructions that write the PC, one by one, and the others by `Effect.pc_of_not_writesPc`. -/
theorem thePcChangesOnlyTheseWays : Obligations.ThePcChangesOnlyTheseWays := by
  refine ⟨fetch_pc_toNat, fun _ _ => step_pc_of_no_fetch, fun i s t h => ?_⟩
  cases i with
  | br n z p off =>
    cases h
    exact branch_pc _ off s
  | jmp | ret => cases h; rfl
  | jsr off =>
    cases h
    exact add_sext_eq_addSigned s.pc off
  | jsrr base =>
    cases h
    exact link_reg base s
  | _ => exact (exec_effect h).pc_of_not_writesPc rfl

/-! ## Who reads COND -/

theorem loadReg_setCond (dr : RegIx) (ea c : Word) (s : State) : loadReg dr ea (s.setCond c) = loadReg dr ea s := by
  simp only [loadReg, memRead_fst, memRead_snd, afterRead_setCond]
  rfl

theorem hostGetChar_setCond (c : Word) (s : State) :
    hostGetChar (s.setCond c) = ((hostGetChar s).1, (hostGetChar s).2.setCond c) := by
  unfold hostGetChar; simp only [State.setCond_hostIn]; cases s.hostIn <;> rfl

theorem readString_setCond (chars : Word → List Byte) (n : Nat) (a c : Word) (s : State) :
    readString chars n a (s.setCond c) =
      ((readString chars n a s).1, (readString chars n a s).2.setCond c) := by
  induction n generalizing a s with
  | zero => rfl
  | succ n ih =>
    simp only [readString_succ, afterRead_setCond, State.word_setCond]
    split
    · rfl
    · exact ih _ (putBytes _ _)

theorem writeString_setCond (chars : Word → List Byte) (a c : Word) (s : State) :
    writeString chars a (s.setCond c) = (writeString chars a s).setCond c := by
  have hb : stringBound (s.setCond c) = stringBound s := rfl
  unfold writeString
  rw [hb, readString_setCond]
  cases readString chars (stringBound s) a s with
  | mk o t =>
    cases o with
    | none => rfl
    | some b =>
      have ht : (t.setCond c).setOut [] = (t.setOut []).setCond c := rfl
      simp only [ht, readString_setCond]
      rfl

/-- Equal but for COND. -/
def SameButCond (s t : State) : Prop := s.setCond 0#16 = t.setCond 0#16

theorem getcAttempt_setCond (c : Word) (s : State) : SameButCond (getcAttempt (s.setCond c)) (getcAttempt s) := by
  unfold getcAttempt
  rw [hostGetChar_setCond]
  rcases hostGetChar s with ⟨_ | _, _⟩ <;> rfl

theorem inAttempt_setCond (c : Word) (s : State) : SameButCond (inAttempt (s.setCond c)) (inAttempt s) := by
  unfold inAttempt
  rw [hostGetChar_setCond]
  rcases hostGetChar s with ⟨_ | _, _⟩ <;> rfl

theorem writeString_sameButCond (chars : Word → List Byte) (a c : Word) (s : State) :
    SameButCond (writeString chars a (s.setCond c)) (writeString chars a s) := by
  rw [writeString_setCond]; rfl

theorem trapDispatch_setCond (vect : BitVec 8) (instr c : Word) (s : State) :
    SameButCond (trapDispatch vect instr (s.setCond c)) (trapDispatch vect instr s) := by
  unfold trapDispatch
  split
  · exact getcAttempt_setCond c s
  split
  · rfl
  split
  · exact writeString_sameButCond putsChars _ c s
  split
  · exact inAttempt_setCond c (putBytes s.params.inPrompt s)
  split
  · exact writeString_sameButCond putspChars _ c s
  split <;> rfl

/-- Settles O56: the loads, STI and the services through their `setCond` lemmas; what is left reads COND nowhere, so that
the two runs are equal by computation. -/
theorem condIsReadOnlyByBr : Obligations.CondIsReadOnlyByBr := by
  intro i s t c hbr h
  cases i with
  | br n z p off => exact absurd rfl (hbr n z p off)
  | ld | ldr => cases h; exact ⟨_, rfl, congrArg (State.setCond · 0#16) (loadReg_setCond _ _ c s)⟩
  | ldi dr off =>
    cases h
    refine ⟨_, rfl, ?_⟩
    simp only [memRead_fst, memRead_snd, afterRead_setCond, State.word_setCond, loadReg_setCond]
    rfl
  | sti sr off =>
    cases h
    refine ⟨_, rfl, ?_⟩
    simp only [memRead_fst, memRead_snd, afterRead_setCond]
    rfl
  | trap ign vect => cases h; exact ⟨_, rfl, trapDispatch_setCond vect _ c s⟩
  | getc => cases h; exact ⟨_, rfl, getcAttempt_setCond c s⟩
  | inp => cases h; exact ⟨_, rfl, inAttempt_setCond c (putBytes s.params.inPrompt s)⟩
  | puts => cases h; exact ⟨_, rfl, writeString_sameButCond putsChars _ c s⟩
  | putsp => cases h; exact ⟨_, rfl, writeString_sameButCond putspChars _ c s⟩
  | _ => cases h; exact ⟨_, rfl, rfl⟩

end Sys2Proof.Machine
end

section
/-! PROOFS. Encoding (spec/30_encoding.md): the fields of a placed field, and that a well-formed instruction's word
decodes to it (R68). -/

namespace Sys2Proof

/-! ## The fields of an encoded word -/

/-- A field is read back where it was placed. -/
@[simp] theorem extractLsb'_place {n : Nat} (v : BitVec n) {lo : Nat} (h : lo + n ≤ 16) :
    (place v lo).extractLsb' lo n = v := by
  ext i hi
  simp [← BitVec.getLsbD_eq_getElem, place_getLsbD, hi, show lo + i < 16 by omega]

/-- A placed field reads as zeros beside its place. -/
@[simp] theorem extractLsb'_place_of_disjoint {n : Nat} (v : BitVec n) {lo lo' k : Nat}
    (h : lo + n ≤ lo' ∨ lo' + k ≤ lo) :
    (place v lo).extractLsb' lo' k = 0#k := by
  ext i hi
  by_cases hlo : lo ≤ lo' + i
  · simp [← BitVec.getLsbD_eq_getElem, place_getLsbD, hi, BitVec.getLsbD_of_ge v (lo' + i - lo) (by omega)]
  · simp [← BitVec.getLsbD_eq_getElem, place_getLsbD, hi, hlo]

/-! ## Decoding an encoded word, by the level of decoding that settles its form (R65) -/

theorem decode_encode_trap {vect : BitVec 8} (ign : BitVec 4) (h : Machine.serviceVectors.contains vect = false) :
    decode (encode (.trap ign vect)) = .trap ign vect := by
  have hvect : vect ≠ Machine.vecGetc ∧ vect ≠ Machine.vecOut ∧ vect ≠ Machine.vecPuts ∧ vect ≠ Machine.vecIn ∧
      vect ≠ Machine.vecPutsp ∧ vect ≠ Machine.vecHalt := by
    simpa [Machine.serviceVectors] using h
  simp [encode, decode, opcodeOf, decodeTrap, field11to8, field7to0, BitVec.extractLsb'_or, hvect]

theorem decode_encode_jmp {base : RegIx} (ignHi : BitVec 3) (ignLo : BitVec 6) (h : base ≠ linkReg) :
    decode (encode (.jmp base ignHi ignLo)) = .jmp base ignHi ignLo := by
  simp [encode, decode, opcodeOf, decodeJump, field11to9, field8to6, field5to0, BitVec.extractLsb'_or, h]

/-- Decoding the word of a well-formed instruction gives it back. -/
theorem decode_encode {i : Instr} (h : i.wf = true) : decode (encode i) = i := by
  cases i with
  | addReg | addImm =>
    simp [encode, decode, opcodeOf, decodeAdd, field11to9, field8to6, field2to0, field4to3, field4to0,
      BitVec.extractLsb'_or, BitVec.getLsbD_or, place_getLsbD, -BitVec.getLsbD_eq_getElem]
  | andReg | andImm =>
    simp [encode, decode, opcodeOf, decodeAnd, field11to9, field8to6, field2to0, field4to3, field4to0,
      BitVec.extractLsb'_or, BitVec.getLsbD_or, place_getLsbD, -BitVec.getLsbD_eq_getElem]
  | not | ldr | str =>
    simp [encode, decode, opcodeOf, field11to9, field8to6, field5to0, BitVec.extractLsb'_or]
  | br =>
    simp [encode, decode, opcodeOf, field8to0, BitVec.extractLsb'_or, BitVec.getLsbD_or, place_getLsbD,
      -BitVec.getLsbD_eq_getElem]
  | ld | ldi | lea | st | sti => simp [encode, decode, opcodeOf, field11to9, field8to0, BitVec.extractLsb'_or]
  | jmp base ignHi ignLo => exact decode_encode_jmp ignHi ignLo (by simpa [Instr.wf] using h)
  | ret => simp [encode, decode, opcodeOf, decodeJump, field11to9, field8to6, field5to0, BitVec.extractLsb'_or]
  | jsr | jsrr =>
    simp [encode, decode, opcodeOf, decodeCall, field10to0, field8to6, field10to9, field5to0,
      BitVec.extractLsb'_or, BitVec.getLsbD_or, place_getLsbD, -BitVec.getLsbD_eq_getElem]
  | trap ign vect => exact decode_encode_trap ign (by simpa [Instr.wf] using h)
  | getc | out | puts | inp | putsp | halt =>
    simp [encode, decode, opcodeOf, decodeTrap, field11to8, field7to0, BitVec.extractLsb'_or, Machine.vecGetc,
      Machine.vecOut, Machine.vecPuts, Machine.vecIn, Machine.vecPutsp, Machine.vecHalt]
  | rti | reserved => simp [encode, decode, opcodeOf, field11to0, BitVec.extractLsb'_or]

end Sys2Proof
end

section
/-! PROOFS. Memory and the keyboard (spec/20_memory.md): the addressing forms (R63, R82, R117), `MemRead` and `MemWrite`
(R43, R44, R45), a store seen by the next fetch (R55), and where memory changes at all (Table 20-1). -/

namespace Sys2Proof.Machine

/-- Settles O21: each form adds its sign-extended offset, which is `addSigned`. -/
theorem addressesAddSignedOffsetsModulo65536 : Obligations.AddressesAddSignedOffsetsModulo65536 :=
  fun s => ⟨add_sext_eq_addSigned s.pc, add_sext_eq_addSigned s.pc, fun base => add_sext_eq_addSigned (s.reg base)⟩

/-! ## `MemWrite` and `MemRead` (R43, R44, R45) -/

theorem memWrite_sameMem (a v : Word) (s : State) : SameMemBut [a] s (memWrite a v s) :=
  fun _ hb => word_memWrite_of_ne s v (List.mem_singleton.not.1 hb)

theorem memWrite_sameRegs (a v : Word) (s : State) : SameRegsBut [] s (memWrite a v s) :=
  fun r _ => memWrite_reg a v s r

theorem memWrite_sameHost (a v : Word) (s : State) : SameHost s (memWrite a v s) := ⟨rfl, rfl, rfl⟩
theorem memWrite_sameRun (a v : Word) (s : State) : SameRun s (memWrite a v s) := ⟨rfl, rfl, rfl, rfl⟩

/-- Settles O22: the word is read back, and the frame of `memWrite`. -/
theorem memWriteStoresAndDoesNothingElse : Obligations.MemWriteStoresAndDoesNothingElse :=
  fun s a v hm => ⟨word_memWrite_self hm a v, memWrite_sameMem a v s, memWrite_wf hm a v, memWrite_sameRegs a v s,
    memWrite_cond a v s, memWrite_pc a v s, memWrite_sameHost a v s, memWrite_sameRun a v s⟩

theorem memRead_of_ne {a : Word} {s : State} (h : a ≠ s.params.kbsrAddr) : memRead a s = (s.word a, s) := by
  rw [memRead, afterRead_of_ne h]

/-- Settles O23: only a read of KBSR polls. -/
theorem ordinaryReadsChangeNothing : Obligations.OrdinaryReadsChangeNothing := fun _ _ => memRead_of_ne

/-- A read of KBSR returns what the poll left there (R44). -/
theorem memRead_kbsr (s : State) :
    memRead s.params.kbsrAddr s = ((pollKeyboard s).word s.params.kbsrAddr, pollKeyboard s) := by
  rw [memRead, afterRead_kbsr]

/-! ## The poll (R44, R57) -/

theorem PollFinds.hostPoll {s : State} {c : Word} {h' : HostInput} (h : PollFinds s c h') :
    (hostPoll s).1 = some c ∧ (hostPoll s).2.hostIn = h' := by
  obtain ⟨b, hin, hc⟩ | ⟨hin, heof, rfl⟩ := h
  · have hzext : zext8 b = c := BitVec.eq_of_toNat_eq ((toNat_zext b (by decide)).trans hc.symm)
    simp [Machine.hostPoll, hin, hzext]
  · simp [Machine.hostPoll, hin, heof]

theorem PollFindsNothing.hostPoll {s : State} {h' : HostInput} (h : PollFindsNothing s h') :
    (hostPoll s).1 = none ∧ (hostPoll s).2.hostIn = h' := by
  obtain hin | ⟨hin, rfl⟩ | ⟨hin, heof, rfl⟩ := h
  · simp [Machine.hostPoll, hin]
  · simp [Machine.hostPoll, hin]
  · simp [Machine.hostPoll, hin, heof]

section
variable {s : State}

theorem pollKeyboard_hostIn (s : State) : (pollKeyboard s).hostIn = (hostPoll s).2.hostIn := latchKey_hostIn _ _

theorem pollKeyboard_word_kbsr (hm : s.mem.wf = true) (hne : s.params.kbsrAddr ≠ s.params.kbdrAddr) :
    (pollKeyboard s).word s.params.kbsrAddr = if (hostPoll s).1.isSome then 0x8000#16 else 0#16 := by
  have h := latchKey_word_kbsr (hostPoll s).1 (s := (hostPoll s).2) (by simpa using hm) (by simpa using hne)
  rwa [hostPoll_params] at h

theorem pollKeyboard_word_kbdr (hm : s.mem.wf = true) :
    (pollKeyboard s).word s.params.kbdrAddr = (hostPoll s).1.getD 0#16 := by
  have h := latchKey_word_kbdr (hostPoll s).1 (s := (hostPoll s).2) (by simpa using hm)
  rwa [hostPoll_params] at h

theorem pollKeyboard_sameMem (s : State) :
    SameMemBut [s.params.kbsrAddr, s.params.kbdrAddr] s (pollKeyboard s) := fun a ha => by
  rw [List.mem_pair, not_or] at ha
  exact pollKeyboard_word_of_ne s ha.1 ha.2

theorem pollKeyboard_sameRun (s : State) : SameRun s (pollKeyboard s) :=
  ⟨pollKeyboard_run s, pollKeyboard_pending s, pollKeyboard_params s, pollKeyboard_out s⟩

/-- The host does not see what a program stores. -/
theorem hostPoll_memWrite (a v : Word) (s : State) :
    hostPoll (memWrite a v s) = ((hostPoll s).1, memWrite a v (hostPoll s).2) := by
  unfold hostPoll; simp only [memWrite_hostIn]; cases s.hostIn <;> rfl

theorem memWrite_memWrite (hm : s.mem.wf = true) (a v w : Word) :
    memWrite a w (memWrite a v s) = memWrite a w s :=
  congrArg s.setMem (Memory.set_set hm a.isLt v w)

/-- A word a program wrote to KBSR is gone before the read returns (R45). -/
theorem pollKeyboard_memWrite_kbsr (hm : s.mem.wf = true) (v : Word) :
    pollKeyboard (memWrite s.params.kbsrAddr v s) = pollKeyboard s := by
  have hm' : (hostPoll s).2.mem.wf = true := by simpa using hm
  simp only [pollKeyboard, hostPoll_memWrite]
  cases (hostPoll s).1 <;> simp [latchKey, memWrite_memWrite hm']

end

/-- Settles O24: the poll's two cells by what the host returned, its frame, and the reads after a program's writes. -/
theorem aReadOfKbsrPollsTheKeyboard : Obligations.AReadOfKbsrPollsTheKeyboard := by
  intro s hm hne r
  rw [show r = _ from memRead_kbsr s]
  have hkbsr := pollKeyboard_word_kbsr hm hne
  have hkbdr := pollKeyboard_word_kbdr hm
  refine ⟨fun c h' h => ?_, fun h' h => ?_, ?_, rfl, pollKeyboard_sameMem s, fun r _ => pollKeyboard_reg s r,
    pollKeyboard_cond s, pollKeyboard_pc s, pollKeyboard_sameRun s, pollKeyboard_eofDraws s,
    pollKeyboard_interruptIn s, fun v => ⟨?_, ?_⟩⟩
  · obtain ⟨hkey, hin⟩ := h.hostPoll
    rw [hkbsr, hkbdr, pollKeyboard_hostIn, hkey]
    exact ⟨rfl, rfl, hin⟩
  · obtain ⟨hkey, hin⟩ := h.hostPoll
    rw [hkbsr, hkbdr, pollKeyboard_hostIn, hkey]
    exact ⟨rfl, rfl, hin⟩
  · rw [hkbsr]
    exact ite_eq_or_eq _ _ _
  · rw [← pollKeyboard_memWrite_kbsr hm v]
    exact memRead_kbsr (memWrite s.params.kbsrAddr v s)
  · rw [memRead_of_ne (s := memWrite s.params.kbdrAddr v s) hne.symm]
    exact word_memWrite_self hm _ v

/-! ## A store is seen by the next fetch (R55) -/

section
variable {s : State}

/-- A host that never interrupts has no countdown to take a boundary off. -/
theorem State.tick_of_interruptIn_none (h : s.interruptIn = none) : s.tick = s := by
  have hset : s.setInterruptIn none = s := by rw [← h]; rfl
  rw [State.tick, h, Option.map_none, hset, ite_self]

/-- A ready machine whose PC is not KBSR's runs the instruction whose word stands at the PC (R80, R82). -/
theorem step_of_word {i : Instr} (h : Ready s) (hpc : s.pc ≠ s.params.kbsrAddr) (hi : i.wf = true)
    (hw : s.word s.pc = encode i) : step s = exec i (s.tick.setPc (s.pc + 1#16)) := by
  have hpc' : s.tick.pc ≠ s.tick.params.kbsrAddr := by simpa using hpc
  rw [step_ready h, fetch_fst, fetch_snd, afterRead_of_ne hpc', State.tick_word, State.tick_pc, hw, decode_encode hi]

/-- `ST SR, #0` stores SR over the word at the incremented PC (R82, R114). -/
theorem exec_st_zero (sr : RegIx) (s : State) : exec (.st sr 0#9) s = .next (memWrite s.pc (s.reg sr) s) := by
  have hoff : pcRel9 0#9 s = s.pc := by simp [pcRel9, sext]
  exact congrArg (fun a => Host.Outcome.next (memWrite a (s.reg sr) s)) hoff

/-- A step that runs `ST SR, #0` leaves a machine as ready as before, with SR's word at its PC. -/
theorem step_st_zero {sr : RegIx} (h : Ready s) (hm : s.mem.wf = true) (hint : s.interruptIn = none)
    (hpc : s.pc ≠ s.params.kbsrAddr) (hw : s.word s.pc = encode (.st sr 0#9)) :
    ∃ t, step s = .next t ∧ Ready t ∧ t.interruptIn = none ∧ t.params = s.params ∧ t.pc = s.pc + 1#16 ∧
      t.word t.pc = s.reg sr := by
  rw [step_of_word h hpc rfl hw, State.tick_of_interruptIn_none hint, exec_st_zero]
  exact ⟨_, rfl, h, hint, rfl, rfl, word_memWrite_self hm _ _⟩

end

/-- Settles O25: `step_of_word` holds of both steps, of the second because the store leaves the machine ready. -/
theorem aStoreIsSeenByTheNextFetch : Obligations.AStoreIsSeenByTheNextFetch := by
  intro s sr j hready hm hint hpc hpc' hword hj hreg
  obtain ⟨t, hstep, hready', hint', hparams, hnext, hstored⟩ := step_st_zero hready hm hint hpc hword
  refine ⟨t, hstep, hnext, ?_⟩
  have hpc'' : t.pc ≠ t.params.kbsrAddr := by rwa [hnext, hparams]
  rw [step_of_word hready' hpc'' hj (hstored.trans hreg), State.tick_of_interruptIn_none hint', hnext,
    BitVec.add_assoc]
  rfl

/-! ## Where memory changes (Table 20-1) -/

theorem Transacts.word_of_ne {s t : State} (h : Transacts s t) {a : Word} (h1 : a ≠ s.params.kbsrAddr)
    (h2 : a ≠ s.params.kbdrAddr) : t.word a = s.word a := by
  induction h with
  | refl => rfl
  | read b hu ih => rw [afterRead_word_of_ne b _ (hu.params ▸ h1) (hu.params ▸ h2), ih]
  | getChar _ ih => rw [hostGetChar_word, ih]
  | put bs _ ih => exact ih

/-- `u` is `s` after an instruction's reads, which leave memory as it was unless one of them polls (R43, R44). -/
def ReadsOnly (polls : Prop) (s u : State) : Prop := Transacts s u ∧ (¬ polls → u.mem = s.mem)

theorem ReadsOnly.refl (polls : Prop) (s : State) : ReadsOnly polls s s := ⟨.refl, fun _ => rfl⟩

theorem ReadsOnly.read (a : Word) (s : State) : ReadsOnly (a = s.params.kbsrAddr) s (afterRead a s) :=
  ⟨.read a .refl, fun h => by rw [afterRead_of_ne h]⟩

/-- LDI reads the pointer, then the word it points to (R111). -/
theorem ReadsOnly.readTwice (b : Word) (s : State) :
    ReadsOnly (b = s.params.kbsrAddr ∨ s.word b = s.params.kbsrAddr) s
      (afterRead (memRead b s).1 (memRead b s).2) :=
  ⟨.read _ (.read b .refl), fun h => by
    obtain ⟨hb, hp⟩ := not_or.1 h
    rw [memRead_of_ne hb, afterRead_of_ne hp]⟩

theorem ReadsOnly.mono {p q : Prop} {s u : State} (h : ReadsOnly p s u) (hpq : p → q) : ReadsOnly q s u :=
  ⟨h.1, fun hq => h.2 (mt hpq hq)⟩

theorem ReadsOnly.word_eq {polls : Prop} {s u : State} (h : ReadsOnly polls s u) (a : Word) :
    (a ≠ s.params.kbsrAddr → a ≠ s.params.kbdrAddr → u.word a = s.word a) ∧
      (¬ polls → u.word a = s.word a) :=
  ⟨h.1.word_of_ne, fun hp => congrArg (Memory.get · a.toNat) (h.2 hp)⟩

/-! ### A string that ends before its reads poll -/

/-- On the way from `a` up to KBSR stands a zero word: a string from `a` on ends before a read polls. -/
def EndsBeforeKbsr (s : State) (a : Word) : Prop :=
  ∀ k, a + BitVec.ofNat 16 k = s.params.kbsrAddr → ∃ j < k, s.word (a + BitVec.ofNat 16 j) = 0#16

theorem stringReaches_of_not_endsBeforeKbsr {s : State} (h : ¬ EndsBeforeKbsr s (s.reg trapReg)) :
    StringReaches s s.params.kbsrAddr := by
  by_contra hreach
  refine h fun k hk => ?_
  by_contra hnone
  exact hreach ⟨k, hk, fun j hj hz => hnone ⟨j, hj, hz⟩⟩

section
variable {s : State} {a : Word}

theorem EndsBeforeKbsr.ne (h : EndsBeforeKbsr s a) : a ≠ s.params.kbsrAddr := fun ha => by
  obtain ⟨j, hj, -⟩ := h 0 (by simpa using ha)
  exact absurd hj (Nat.not_lt_zero j)

/-- A word that is not zero is not the one that ends the string. -/
theorem EndsBeforeKbsr.succ (h : EndsBeforeKbsr s a) (hz : s.word a ≠ 0#16) : EndsBeforeKbsr s (a + 1#16) := by
  intro k hk
  obtain ⟨j, hj, hj0⟩ := h (k + 1) (by rwa [add_ofNat_succ])
  cases j with
  | zero => exact absurd (by simpa using hj0) hz
  | succ j => exact ⟨j, by omega, by rwa [← add_ofNat_succ]⟩

theorem readString_mem (h : EndsBeforeKbsr s a) (chars : Word → List Byte) (n : Nat) :
    (readString chars n a s).2.mem = s.mem := by
  induction n generalizing a s with
  | zero => rfl
  | succ n ih =>
    rw [readString_succ, afterRead_of_ne h.ne]
    split
    · rfl
    · next hz => exact ih (s := putBytes _ s) (h.succ hz)

end

/-- A service of strings ends in the state its reads left, or leaves memory as it was (log 21). -/
theorem writeString_word (chars : Word → List Byte) (a b : Word) (s : State) :
    ∃ u, ReadsOnly (¬ EndsBeforeKbsr s a) s u ∧ (writeString chars a s).word b = u.word b := by
  obtain ⟨-, e⟩ | ⟨bs, round, -, -, e⟩ := writeString_cases chars a s <;> rw [e]
  · exact ⟨_, ⟨.readString chars _ a s, fun h => readString_mem (not_not.1 h) chars _⟩, rfl⟩
  · exact ⟨s, .refl _ s, rfl⟩

/-! ### Every instruction -/

theorem getcAttempt_word (s : State) (a : Word) : (getcAttempt s).word a = s.word a := by
  obtain ⟨c, -, e⟩ | ⟨-, e⟩ := getcAttempt_cases s <;> simp [e]

theorem inAttempt_word (s : State) (a : Word) : (inAttempt s).word a = s.word a := by
  obtain ⟨c, -, e⟩ | ⟨-, e⟩ := inAttempt_cases s <;> simp [e]

/-- PUTS and PUTSP read from the address in R0 on. -/
theorem writeString_r0_word (chars : Word → List Byte) (s : State) (a : Word) :
    ∃ u, ReadsOnly (StringReaches s s.params.kbsrAddr) s u ∧
      (writeString chars (s.reg trapReg) s).word a = u.word a := by
  obtain ⟨u, hu, e⟩ := writeString_word chars (s.reg trapReg) a s
  exact ⟨u, hu.mono stringReaches_of_not_endsBeforeKbsr, e⟩

/-- Of the services only PUTS and PUTSP read memory, and none stores. -/
theorem trapDispatch_word (vect : BitVec 8) (instr : Word) (s : State) (a : Word) :
    ∃ u, ReadsOnly ((vect = vecPuts ∨ vect = vecPutsp) ∧ StringReaches s s.params.kbsrAddr) s u ∧
      (trapDispatch vect instr s).word a = u.word a := by
  have hstring (hv : vect = vecPuts ∨ vect = vecPutsp) (chars : Word → List Byte) :
      ∃ u, ReadsOnly ((vect = vecPuts ∨ vect = vecPutsp) ∧ StringReaches s s.params.kbsrAddr) s u ∧
        (writeString chars (s.reg trapReg) s).word a = u.word a := by
    obtain ⟨u, hu, e⟩ := writeString_r0_word chars s a
    exact ⟨u, hu.mono (And.intro hv), e⟩
  unfold trapDispatch
  split
  · exact ⟨s, .refl _ s, getcAttempt_word s a⟩
  split
  · exact ⟨s, .refl _ s, rfl⟩
  split
  · next hv => exact hstring (.inl hv) putsChars
  split
  · exact ⟨s, .refl _ s, inAttempt_word (putBytes s.params.inPrompt s) a⟩
  split
  · next hv => exact hstring (.inr hv) putspChars
  split <;> exact ⟨s, .refl _ s, rfl⟩

/-- But for the word it stores to, an instruction leaves every word as its reads left it. -/
theorem exec_word {i : Instr} {s t : State} {a : Word} (h : exec i s = .next t) (ha : storeAddress i s ≠ some a) :
    ∃ u, ReadsOnly (ReadsKbsr i s) s u ∧ t.word a = u.word a := by
  have hstore {b : Word} (v : Word) (u : State) (hb : some b ≠ some a) : (memWrite b v u).word a = u.word a :=
    word_memWrite_of_ne u v fun e => hb (congrArg some e.symm)
  cases i with
  | ld | ldr => cases h; exact ⟨_, .read _ s, rfl⟩
  | ldi => cases h; exact ⟨_, .readTwice _ s, rfl⟩
  | st | str => cases h; exact ⟨s, .refl _ s, hstore _ s ha⟩
  | sti => cases h; exact ⟨_, .read _ s, hstore _ _ ha⟩
  | br => cases h; refine ⟨s, .refl _ s, ?_⟩; split <;> rfl
  | trap ign vect => cases h; exact trapDispatch_word vect _ s a
  | getc => cases h; exact ⟨s, .refl _ s, getcAttempt_word s a⟩
  | inp => cases h; exact ⟨s, .refl _ s, inAttempt_word (putBytes s.params.inPrompt s) a⟩
  | puts => cases h; exact writeString_r0_word putsChars s a
  | putsp => cases h; exact writeString_r0_word putspChars s a
  | _ => cases h; exact ⟨s, .refl _ s, rfl⟩

/-- Settles O58: `exec_word`, and what the reads of an instruction leave. -/
theorem memoryChangesOnlyWhereStored : Obligations.MemoryChangesOnlyWhereStored := by
  intro i s t a h ha
  obtain ⟨u, hu, e⟩ := exec_word h ha
  rw [e]
  exact hu.word_eq a

end Sys2Proof.Machine
end

section
/-! PROOFS. Encoding (spec/30_encoding.md): decoding drops no bit (R68), every word has exactly one form (Table 30-3),
the words that fault (R67), and the bits no format names (R66). -/

namespace Sys2Proof

/-- Settles O1: each word, decoded. -/
theorem specWordsDecodeAsWritten : Obligations.SpecWordsDecodeAsWritten := by
  unfold Obligations.SpecWordsDecodeAsWritten
  decide

/-- Settles O2, by `decode_encode`. -/
theorem decodeOfEncodeIsTheInstruction : Obligations.DecodeOfEncodeIsTheInstruction := fun _ => decode_encode

/-! ## Encoding a decoded word: its fields, from the opcode down, make up the word again -/

/-- A word with its lowest `lo` bits cleared. -/
def topBits (w : Word) (lo : Nat) : Word := w >>> lo <<< lo

theorem topBits_getLsbD (w : Word) (lo i : Nat) : (topBits w lo).getLsbD i = (decide (lo ≤ i) && w.getLsbD i) := by
  by_cases h : lo ≤ i
  · by_cases hi : i < 16
    · simp [topBits, -BitVec.getLsbD_eq_getElem, h, hi, show ¬ i < lo by omega, show lo + (i - lo) = i by omega]
    · simp [BitVec.getLsbD_of_ge _ i (show 16 ≤ i by omega)]
  · simp [topBits, h, show i < lo by omega]

@[simp] theorem topBits_zero (w : Word) : topBits w 0 = w := by simp [topBits]

@[simp] theorem place_opcodeOf (w : Word) : place (opcodeOf w) 12 = topBits w 12 := by
  apply BitVec.eq_of_getLsbD_eq
  intro i hi
  by_cases h : 12 ≤ i
  · simp only [place_getLsbD, topBits_getLsbD, opcodeOf_getLsbD, hi, h, show i - 12 < 4 by omega,
      show 12 + (i - 12) = i by omega, decide_true, Bool.true_and]
  · simp only [place_getLsbD, topBits_getLsbD, h, decide_false, Bool.false_and, Bool.and_false]

/-- The next field below the bits already in place. -/
@[simp] theorem topBits_or_place (w : Word) {lo' lo n : Nat} (h : lo' = lo + n) :
    topBits w lo' ||| place (w.extractLsb' lo n) lo = topBits w lo := by
  subst h
  apply BitVec.eq_of_getLsbD_eq
  intro i hi
  simp only [BitVec.getLsbD_or, topBits_getLsbD, place_getLsbD, BitVec.getLsbD_extractLsb', hi]
  by_cases hlo : lo ≤ i
  · by_cases hn : i < lo + n
    · simp [hlo, show ¬ lo + n ≤ i by omega, show i - lo < n by omega, show lo + (i - lo) = i by omega]
    · simp [hlo, show lo + n ≤ i by omega, show ¬ i - lo < n by omega]
  · simp [hlo, show ¬ lo + n ≤ i by omega]

/-- The next bit below the bits already in place. -/
@[simp] theorem topBits_or_bit (w : Word) {lo' lo : Nat} {v : BitVec 1} (h : lo' = lo + 1)
    (hv : v = BitVec.ofBool (w.getLsbD lo)) : topBits w lo' ||| place v lo = topBits w lo := by
  have hv' : v = w.extractLsb' lo 1 := by
    ext i hi
    simp [hv, show i = 0 by omega]
  rw [hv', topBits_or_place w h]

section
variable {w : Word}

theorem encode_decodeAdd (h : opcodeOf w = 0b0001#4) : encode (decodeAdd w) = w := by
  unfold decodeAdd
  split <;>
    next hb => simp [encode, ← h, field11to9, field8to6, field4to0, field4to3, field2to0, hb, -BitVec.getLsbD_eq_getElem]

theorem encode_decodeAnd (h : opcodeOf w = 0b0101#4) : encode (decodeAnd w) = w := by
  unfold decodeAnd
  split <;>
    next hb => simp [encode, ← h, field11to9, field8to6, field4to0, field4to3, field2to0, hb, -BitVec.getLsbD_eq_getElem]

theorem encode_decodeCall (h : opcodeOf w = 0b0100#4) : encode (decodeCall w) = w := by
  unfold decodeCall
  split <;>
    next hb => simp [encode, ← h, field10to0, field10to9, field8to6, field5to0, hb, -BitVec.getLsbD_eq_getElem]

theorem encode_decodeJump (h : opcodeOf w = 0b1100#4) : encode (decodeJump w) = w := by
  unfold decodeJump
  split
  · next hb => simp [encode, ← h, ← hb, field11to9, field8to6, field5to0]
  · simp [encode, ← h, field11to9, field8to6, field5to0]

theorem encode_decodeTrap (h : opcodeOf w = 0b1111#4) : encode (decodeTrap w) = w := by
  have hw : place 0b1111#4 12 ||| place (field11to8 w) 8 ||| place (field7to0 w) 0 = w := by
    simp [← h, field11to8, field7to0]
  unfold decodeTrap
  split_ifs
  case neg => exact hw
  all_goals
    next hvect =>
      rw [hvect] at hw
      exact hw

end

/-- Decoding drops no bit (R68): the opcodes with a further level of decoding (R65), the arms 2, 5, 6, 13 and 16 of
`decode`, by that level's lemma; the others by their fields. -/
theorem encode_decode (w : Word) : encode (decode w) = w := by
  unfold decode
  split
  case h_2 h => exact encode_decodeAdd h
  case h_5 h => exact encode_decodeCall h
  case h_6 h => exact encode_decodeAnd h
  case h_13 h => exact encode_decodeJump h
  case h_16 => exact encode_decodeTrap (by generalize opcodeOf w = op at *; revert op; decide)
  all_goals next h => simp [encode, ← h, field11to9, field8to6, field8to0, field5to0, field11to0]

/-! ## A decoded instruction is well formed -/

theorem decodeJump_wf (w : Word) : (decodeJump w).wf = true := by
  unfold decodeJump
  split
  · rfl
  · next hb => simpa [Instr.wf] using hb

theorem decodeTrap_wf (w : Word) : (decodeTrap w).wf = true := by
  unfold decodeTrap
  split_ifs
  case neg => simp [Instr.wf, Machine.serviceVectors, *]
  all_goals rfl

theorem decode_wf (w : Word) : (decode w).wf = true := by
  unfold decode
  split
  case h_2 => unfold decodeAdd; split <;> rfl
  case h_5 => unfold decodeCall; split <;> rfl
  case h_6 => unfold decodeAnd; split <;> rfl
  case h_13 => exact decodeJump_wf w
  case h_16 => exact decodeTrap_wf w
  all_goals rfl

/-- Settles O3, by the fields of the word. -/
theorem encodeOfDecodeIsTheWord : Obligations.EncodeOfDecodeIsTheWord := fun w => ⟨decode_wf w, encode_decode w⟩

/-! ## Every word has exactly one form (Table 30-3) -/

/-- An instruction's word agrees with the row of its form. -/
theorem form_covers_encode : ∀ i : Instr, i.form.covers (encode i) = true
  | .addReg .. => Laws.RowMatch.addReg ..
  | .addImm .. => Laws.RowMatch.addImm ..
  | .andReg .. => Laws.RowMatch.andReg ..
  | .andImm .. => Laws.RowMatch.andImm ..
  | .not .. => Laws.RowMatch.not ..
  | .br .. => Laws.RowMatch.br ..
  | .jmp .. => Laws.RowMatch.jmp ..
  | .ret .. => Laws.RowMatch.ret ..
  | .jsr .. => Laws.RowMatch.jsr ..
  | .jsrr .. => Laws.RowMatch.jsrr ..
  | .ld .. => Laws.RowMatch.ld ..
  | .ldi .. => Laws.RowMatch.ldi ..
  | .ldr .. => Laws.RowMatch.ldr ..
  | .lea .. => Laws.RowMatch.lea ..
  | .st .. => Laws.RowMatch.st ..
  | .sti .. => Laws.RowMatch.sti ..
  | .str .. => Laws.RowMatch.str ..
  | .trap .. => Laws.RowMatch.trap ..
  | .getc .. => Laws.RowMatch.getc ..
  | .out .. => Laws.RowMatch.out ..
  | .puts .. => Laws.RowMatch.puts ..
  | .inp .. => Laws.RowMatch.inp ..
  | .putsp .. => Laws.RowMatch.putsp ..
  | .halt .. => Laws.RowMatch.halt ..
  | .rti .. => Laws.RowMatch.rti ..
  | .reserved .. => Laws.RowMatch.reserved ..

theorem form_decode_covers (w : Word) : (decode w).form.covers w = true := by
  have h := form_covers_encode (decode w)
  rwa [encode_decode] at h

/-- The 19 rows of Table 30-3. -/
def Form.all : List Form :=
  [.addReg, .addImm, .andReg, .andImm, .not, .br, .jmp, .jsr, .jsrr, .ld, .ldi, .ldr, .lea, .st, .sti, .str, .trap,
    .rti, .reserved]

theorem Form.mem_all (f : Form) : f ∈ Form.all := by cases f <;> decide

/-- Any two rows differ in a bit that both of them fix. -/
theorem Form.eq_of_patterns_agree {f g : Form} (h : f.pattern &&& g.mask = g.pattern &&& f.mask) : f = g := by
  have table : ∀ f ∈ Form.all, ∀ g ∈ Form.all, f.pattern &&& g.mask = g.pattern &&& f.mask → f = g := by decide
  exact table f f.mem_all g g.mem_all h

theorem Form.covers_iff {f : Form} {w : Word} : f.covers w = true ↔ w &&& f.mask = f.pattern := beq_iff_eq

/-- A word agrees with one row at most. -/
theorem Form.eq_of_covers {f g : Form} {w : Word} (hf : f.covers w = true) (hg : g.covers w = true) : f = g := by
  rw [Form.covers_iff] at hf hg
  apply Form.eq_of_patterns_agree
  rw [← hf, ← hg, BitVec.and_assoc, BitVec.and_assoc, BitVec.and_comm f.mask]

/-- Settles O4: the row of the decoded instruction is one, and two rows never cover one word. -/
theorem everyWordHasExactlyOneForm : Obligations.EveryWordHasExactlyOneForm := fun w =>
  ⟨form_decode_covers w, fun _ hf => Form.eq_of_covers hf (form_decode_covers w)⟩

end Sys2Proof

namespace Sys2Proof.Machine

/-! ## The illegal words (R67) as instructions -/

/-- A well-formed instruction whose word is illegal (R67): RTI, opcode 1101, TRAP with an unsupported vector. -/
def isIllegal : Instr → Bool
  | .rti .. | .reserved .. | .trap .. => true
  | _ => false

/-- Every row fixes the opcode (R60). -/
theorem opcodeOf_of_covers {f : Form} {w : Word} (h : f.covers w = true) : opcodeOf w = opcodeOf f.pattern := by
  have hmask : opcodeOf f.mask = BitVec.allOnes 4 := by cases f <;> rfl
  calc opcodeOf w = opcodeOf w &&& opcodeOf f.mask := by rw [hmask, BitVec.and_allOnes]
    _ = opcodeOf (w &&& f.mask) := BitVec.extractLsb'_and.symm
    _ = opcodeOf f.pattern := by rw [Form.covers_iff.1 h]

theorem opcodeOf_encode (i : Instr) : opcodeOf (encode i) = opcodeOf i.form.pattern :=
  opcodeOf_of_covers (form_covers_encode i)

theorem field7to0_toNat (w : Word) : (field7to0 w).toNat = w.toNat % 256 := by simp [field7to0]

/-- The six supported vectors are a range (Table 44-1). -/
theorem mem_serviceVectors_iff (vect : BitVec 8) : vect ∈ serviceVectors ↔ 0x20 ≤ vect.toNat ∧ vect.toNat ≤ 0x25 := by
  simp only [serviceVectors, vecGetc, vecOut, vecPuts, vecIn, vecPutsp, vecHalt, List.mem_cons, List.not_mem_nil,
    or_false, ← BitVec.toNat_inj, BitVec.toNat_ofNat, Nat.reducePow, Nat.reduceMod]
  omega

/-- A TRAP word is illegal unless its vector is a service's (R67, R137). -/
theorem illegal_encode_trap (ign : BitVec 4) (vect : BitVec 8) :
    Illegal (encode (.trap ign vect)) ↔ vect ∉ serviceVectors := by
  have hop : opcodeOf (encode (.trap ign vect)) = 0b1111#4 :=
    (opcodeOf_encode (.trap ign vect)).trans (show opcodeOf Form.trap.pattern = 0b1111#4 by decide)
  have hvect : field7to0 (encode (.trap ign vect)) = vect := by simp [encode, field7to0, BitVec.extractLsb'_or]
  rw [Illegal, hop, ← field7to0_toNat, hvect, mem_serviceVectors_iff]
  simp

theorem illegal_encode_iff {i : Instr} (h : i.wf = true) : Illegal (encode i) ↔ isIllegal i = true := by
  cases i with
  | trap ign vect => exact (illegal_encode_trap ign vect).trans (by simpa [isIllegal, Instr.wf] using h)
  | getc ign => exact (illegal_encode_trap ign vecGetc).trans (by simp [isIllegal, serviceVectors])
  | out ign => exact (illegal_encode_trap ign vecOut).trans (by simp [isIllegal, serviceVectors])
  | puts ign => exact (illegal_encode_trap ign vecPuts).trans (by simp [isIllegal, serviceVectors])
  | inp ign => exact (illegal_encode_trap ign vecIn).trans (by simp [isIllegal, serviceVectors])
  | putsp ign => exact (illegal_encode_trap ign vecPutsp).trans (by simp [isIllegal, serviceVectors])
  | halt ign => exact (illegal_encode_trap ign vecHalt).trans (by simp [isIllegal, serviceVectors])
  | _ => rw [Illegal, opcodeOf_encode]; simp [Instr.form, Form.pattern, isIllegal, opcodeOf]

theorem illegal_iff (w : Word) : Illegal w ↔ isIllegal (decode w) = true := by
  rw [← illegal_encode_iff (decode_wf w), encode_decode]

/-! ## What faults (R67, R160) -/

theorem exec_faulted_of_isIllegal {i : Instr} {s t : State} (hwf : i.wf = true) (hi : isIllegal i = true)
    (h : exec i s = .next t) : ∃ record, t.run = .faulted record := by
  cases i with
  | rti | reserved => cases h; exact ⟨_, rfl⟩
  | trap ign vect =>
    cases h
    rw [trapDispatch_unsupported (by simpa [Instr.wf] using hwf)]
    exact ⟨_, rfl⟩
  | _ => cases hi

theorem EndsOrGoesOn.run {s t : State} {p : Pending} (h : EndsOrGoesOn s p t) : t.run = s.run := by
  obtain ⟨u, hu, ⟨c, rfl⟩ | rfl⟩ := h <;> simpa using hu.run

theorem exec_run_of_not_isIllegal {i : Instr} {s t : State} (hi : isIllegal i = false)
    (h : exec i s = .next t) : t.run = s.run ∨ t.run = .halted := by
  cases i with
  | rti | reserved | trap => cases hi
  | halt => cases h; exact .inr rfl
  | getc => cases h; exact .inl (getcAttempt_endsOrGoesOn s).run
  | inp => cases h; exact .inl (inAttempt_endsOrGoesOn (s := s) (.put _ .refl)).run
  | puts | putsp => cases h; exact .inl (writeString_run ..)
  | ld | ldi | ldr | sti => cases h; exact .inl (by simp [loadReg, memWrite])
  | br n z p off => cases h; exact .inl (by split <;> rfl)
  | _ => cases h; exact .inl rfl

/-- Settles O5, by `illegal_iff` and what an instruction does to the run state. -/
theorem faultingWordsAreExactlyTheIllegalOnes : Obligations.FaultingWordsAreExactlyTheIllegalOnes := by
  intro s w hr
  obtain ⟨t, ht⟩ := exec_next (decode w) s
  refine ⟨t, ht, ?_⟩
  rw [illegal_iff]
  cases hi : isIllegal (decode w) with
  | true => exact iff_of_true (exec_faulted_of_isIllegal (decode_wf w) hi ht) rfl
  | false => obtain h | h := exec_run_of_not_isIllegal hi ht <;> simp [h, hr]

/-! ## The bits no format names (R66) -/

/-- An instruction with the bits its form does not name at 0. -/
def eraseIgnored : Instr → Instr
  | .addReg dr sr1 sr2 _ => .addReg dr sr1 sr2 0#2
  | .andReg dr sr1 sr2 _ => .andReg dr sr1 sr2 0#2
  | .not dr sr _ => .not dr sr 0#6
  | .jmp base _ _ => .jmp base 0#3 0#6
  | .ret _ _ => .ret 0#3 0#6
  | .jsrr base _ _ => .jsrr base 0#2 0#6
  | .trap _ vect => .trap 0#4 vect
  | .getc _ => .getc 0#4
  | .out _ => .out 0#4
  | .puts _ => .puts 0#4
  | .inp _ => .inp 0#4
  | .putsp _ => .putsp 0#4
  | .halt _ => .halt 0#4
  | .rti _ => .rti 0#12
  | .reserved _ => .reserved 0#12
  | i => i

theorem eraseIgnored_wf {i : Instr} (h : i.wf = true) : (eraseIgnored i).wf = true := by
  cases i <;> exact h

theorem isIllegal_eraseIgnored (i : Instr) : isIllegal (eraseIgnored i) = isIllegal i := by
  cases i <;> rfl

/-- A legal instruction does not look at its ignored bits. -/
theorem exec_eraseIgnored {i : Instr} (h : isIllegal i = false) (s : State) : exec (eraseIgnored i) s = exec i s := by
  cases i with
  | rti | reserved | trap => cases h
  | _ => rfl

/-- A mask takes of a field what it has at the field's place. -/
theorem place_and {n : Nat} (v : BitVec n) (lo : Nat) (m : Word) :
    place v lo &&& m = place (v &&& m.extractLsb' lo n) lo := by
  apply BitVec.eq_of_getLsbD_eq
  intro i hi
  simp only [BitVec.getLsbD_and, place_getLsbD, BitVec.getLsbD_extractLsb', hi]
  by_cases hlo : lo ≤ i
  · by_cases hn : i - lo < n
    · simp [hlo, hn, show lo + (i - lo) = i by omega]
    · simp [BitVec.getLsbD_of_ge v (i - lo) (by omega)]
  · simp [hlo]

/-- A field that a mask takes whole. -/
theorem place_and_of_ones {n : Nat} (v : BitVec n) {lo : Nat} {m : Word} (h : m.extractLsb' lo n = BitVec.allOnes n) :
    place v lo &&& m = place v lo := by
  rw [place_and, h, BitVec.and_allOnes]

/-- A field that a mask drops whole. -/
theorem place_and_of_zeros {n : Nat} (v : BitVec n) {lo : Nat} {m : Word} (h : m.extractLsb' lo n = 0#n) :
    place v lo &&& m = place 0#n lo := by
  rw [place_and, h, BitVec.and_zero]

theorem encode_and_usedBits (i : Instr) : encode i &&& usedBits i.form = encode (eraseIgnored i) := by
  cases i with
  | addImm | andImm | br | jsr | ld | ldi | ldr | lea | st | sti | str => exact BitVec.and_allOnes
  | _ =>
    simp [encode, usedBits, Instr.form, eraseIgnored, place_and_of_ones, place_and_of_zeros,
      BitVec.and_or_distrib_right]

theorem decode_and_usedBits (w : Word) : decode (w &&& usedBits (decode w).form) = eraseIgnored (decode w) := by
  have h := encode_and_usedBits (decode w)
  rw [encode_decode] at h
  rw [h, decode_encode (eraseIgnored_wf (decode_wf w))]

/-- A form names the bits that select it. -/
theorem usedBits_and_mask (f : Form) : usedBits f &&& f.mask = f.mask := by cases f <;> rfl

theorem form_decode_eq_of_usedBits {w w' : Word}
    (h : w &&& usedBits (decode w).form = w' &&& usedBits (decode w).form) : (decode w').form = (decode w).form := by
  have hw := Form.covers_iff.1 (form_decode_covers w)
  refine Form.eq_of_covers (form_decode_covers w') (Form.covers_iff.2 ?_)
  rw [← usedBits_and_mask, ← BitVec.and_assoc] at hw ⊢
  rwa [← h]

/-- Settles O6: both words decode, but for the ignored bits, to one instruction. -/
theorem ignoredBitsChangeNothing : Obligations.IgnoredBitsChangeNothing := by
  intro s w w' hlegal h
  have herase : eraseIgnored (decode w) = eraseIgnored (decode w') := by
    rw [← decode_and_usedBits w, ← decode_and_usedBits w', form_decode_eq_of_usedBits h, h]
  have hi : isIllegal (decode w) = false := by simpa [illegal_iff] using hlegal
  have hi' : isIllegal (decode w') = false := by rw [← isIllegal_eraseIgnored, ← herase, isIllegal_eraseIgnored, hi]
  rw [← exec_eraseIgnored hi, herase, exec_eraseIgnored hi']

end Sys2Proof.Machine
end

section
/-! PROOFS. The execution cycle (spec/40_execution_cycle.md): a step runs the word at the PC (R80, R82), a fetch from KBSR
polls (R44), and how a step ends a run (R85). -/

namespace Sys2Proof.Machine

/-! ## The step of a ready machine (R80, R82) -/

/-- Where no service is under way the host may interrupt, so the boundary takes one off its countdown (log 19). -/
theorem State.tick_of_pending_none {s : State} (h : s.pending = none) :
    s.tick = s.setInterruptIn (s.interruptIn.map (· - 1)) := by
  simp [State.tick, State.interruptible, h]

/-- Settles O7: `step_of_word`, with the countdown of a machine that has no service under way. -/
theorem stepRunsTheDecodedInstruction : Obligations.StepRunsTheDecodedInstruction := by
  intro s i hready hpc hi hw
  have ⟨_, hpending, _⟩ := hready
  rw [step_of_word hready hpc hi hw, State.tick_of_pending_none hpending]
  rfl

/-! ## What an illegal word does (R161) -/

theorem reasonFor_of_not_trap {w : Word} {op : BitVec 4} (h : opcodeOf w = op) (hop : op ≠ 0b1111#4) :
    reasonFor w = .reservedOpcode op := by
  rw [reasonFor, h, if_neg hop]

theorem reasonFor_of_trap {w : Word} (h : opcodeOf w = 0b1111#4) : reasonFor w = .unsupportedTrap (field7to0 w) := by
  have hvect : BitVec.ofNat 8 w.toNat = field7to0 w := BitVec.eq_of_toNat_eq (field7to0_toNat w).symm
  rw [reasonFor, if_pos h, hvect]

theorem opcodeOf_encode_of_form {i : Instr} {op : BitVec 4} (f : Form) (hf : i.form = f)
    (h : opcodeOf f.pattern = op) : opcodeOf (encode i) = op := by
  rw [opcodeOf_encode, hf, h]

theorem opcodeOf_encode_trap (ign : BitVec 4) (vect : BitVec 8) : opcodeOf (encode (.trap ign vect)) = 0b1111#4 :=
  opcodeOf_encode_of_form .trap rfl (by decide)

theorem field7to0_encode_trap (ign : BitVec 4) (vect : BitVec 8) : field7to0 (encode (.trap ign vect)) = vect := by
  simp [encode, field7to0, BitVec.extractLsb'_or]

/-- RTI, opcode 1101 and an unsupported vector fault with the reason their word calls for (R137, R150, R151). -/
theorem exec_of_isIllegal {i : Instr} (hwf : i.wf = true) (hi : isIllegal i = true) (s : State) :
    exec i s = .next (raiseFault (reasonFor (encode i)) (encode i) s) := by
  cases i with
  | rti =>
    rw [reasonFor_of_not_trap (op := 0b1000#4) (opcodeOf_encode_of_form .rti rfl (by decide)) (by decide)]
    rfl
  | reserved =>
    rw [reasonFor_of_not_trap (op := 0b1101#4) (opcodeOf_encode_of_form .reserved rfl (by decide)) (by decide)]
    rfl
  | trap ign vect =>
    rw [reasonFor_of_trap (opcodeOf_encode_trap ign vect), field7to0_encode_trap]
    exact congrArg Host.Outcome.next (trapDispatch_unsupported (by simpa [Instr.wf] using hwf) _ s)
  | _ => cases hi

/-- An illegal word (R67) faults and does nothing else, the record holding its reason and the word (R161). -/
theorem exec_of_illegal {w : Word} (h : Illegal w) (s : State) :
    exec (decode w) s = .next (raiseFault (reasonFor w) w s) := by
  have he := exec_of_isIllegal (decode_wf w) ((illegal_iff w).1 h) s
  rwa [encode_decode] at he

/-! ## A fetch from KBSR (R44, R80; D7) -/

/-- What a fetch from KBSR leaves once the boundary has passed: the poll's effects and the incremented PC. -/
def afterKbsrFetch (s : State) : State := (pollKeyboard s.tick).setPc (s.pc + 1#16)

theorem step_at_kbsr {s : State} (h : Ready s) (hpc : s.pc = s.params.kbsrAddr) :
    step s = exec (decode ((afterKbsrFetch s).word s.params.kbsrAddr)) (afterKbsrFetch s) := by
  have hpoll : afterRead s.tick.pc s.tick = pollKeyboard s.tick := by
    rw [State.tick_pc, hpc, ← State.tick_params, afterRead_kbsr]
  rw [step_ready h, fetch_fst, fetch_snd, hpoll, State.tick_pc, ← hpc]
  rfl

/-- The two device cells and the host's input, by what the poll returned (R44). -/
theorem afterKbsrFetch_polled {s : State} (hs : Inv s) {key : Option Word} {h' : HostInput}
    (h : (hostPoll s.tick).1 = key ∧ (hostPoll s.tick).2.hostIn = h') :
    (afterKbsrFetch s).word s.params.kbsrAddr = (if key.isSome then 0x8000#16 else 0#16) ∧
      (afterKbsrFetch s).word s.params.kbdrAddr = key.getD 0#16 ∧ (afterKbsrFetch s).hostIn = h' := by
  obtain ⟨hm, -, hne, -⟩ := hs.tick
  have hkbsr := pollKeyboard_word_kbsr hm hne
  have hkbdr := pollKeyboard_word_kbdr hm
  rw [State.tick_params, h.1] at hkbsr hkbdr
  exact ⟨hkbsr, hkbdr, (pollKeyboard_hostIn _).trans h.2⟩

/-- A fetch from KBSR touches nothing but the device cells, the host's input, the countdown and the PC. -/
theorem afterKbsrFetch_frame (s : State) :
    SameRegsBut [] s (afterKbsrFetch s) ∧ (afterKbsrFetch s).cond = s.cond ∧
      SameMemBut [s.params.kbsrAddr, s.params.kbdrAddr] s (afterKbsrFetch s) ∧ (afterKbsrFetch s).out = s.out ∧
      (afterKbsrFetch s).eofDraws = s.eofDraws ∧ (afterKbsrFetch s).params = s.params := by
  have hmem := pollKeyboard_sameMem s.tick
  rw [State.tick_params] at hmem
  exact ⟨fun r _ => (pollKeyboard_reg _ r).trans (s.tick_reg r), (pollKeyboard_cond _).trans s.tick_cond,
    fun a ha => (hmem a ha).trans (s.tick_word a), (pollKeyboard_out _).trans s.tick_out,
    (pollKeyboard_eofDraws _).trans s.tick_eofDraws, (pollKeyboard_params _).trans s.tick_params⟩

theorem PollFinds.tick {s : State} {c : Word} {h' : HostInput} (h : PollFinds s c h') : PollFinds s.tick c h' := by
  simpa [PollFinds] using h

theorem PollFindsNothing.tick {s : State} {h' : HostInput} (h : PollFindsNothing s h') :
    PollFindsNothing s.tick h' := by
  simpa [PollFindsNothing] using h

/-- The word 0x0000 is a BR that no flag can take (R69, R100). -/
theorem exec_decode_zero (s : State) : exec (decode 0#16) s = .next s := rfl

/-- Settles O8: the word fetched is the poll's, 0x8000 an illegal one and 0x0000 one that does nothing. -/
theorem fetchFromKbsrPolls : Obligations.FetchFromKbsrPolls := by
  intro s hready hs hpc
  have ⟨hr, hpending, _⟩ := hready
  obtain ⟨hregs, hcond, hmem, hout, heof, hparams⟩ := afterKbsrFetch_frame s
  rw [step_at_kbsr hready hpc]
  refine ⟨fun c h' h => ?_, fun h' h => ?_⟩
  · obtain ⟨hkbsr, hkbdr, hin⟩ := afterKbsrFetch_polled hs h.tick.hostPoll
    rw [hkbsr]
    exact ⟨_, exec_of_illegal (w := 0x8000#16) (by decide) _, rfl, rfl, hkbsr, hkbdr, hin, hregs, hcond, hmem, hout,
      heof, hparams⟩
  · obtain ⟨hkbsr, hkbdr, hin⟩ := afterKbsrFetch_polled hs h.tick.hostPoll
    rw [hkbsr]
    exact ⟨_, exec_decode_zero _, by simp [afterKbsrFetch, hr], rfl, hkbsr, hkbdr, hin, hregs, hcond, hmem, hout, heof,
      hparams, by simp [afterKbsrFetch, hpending]⟩

/-! ## How a step ends a run (R84, R85) -/

/-- The run state after an instruction: as it was, but for HALT, and for the illegal ones, which raise their fault. -/
theorem exec_run_cases {i : Instr} {s t : State} (hwf : i.wf = true) (h : exec i s = .next t) :
    t.run = s.run ∨ (t.run = .halted ∧ ∃ ign, i = .halt ign) ∨
      (isIllegal i = true ∧ t = raiseFault (reasonFor (encode i)) (encode i) s) := by
  cases i with
  | rti | reserved | trap =>
    rw [exec_of_isIllegal hwf rfl] at h
    cases h; exact .inr (.inr ⟨rfl, rfl⟩)
  | halt ign => cases h; exact .inr (.inl ⟨rfl, ign, rfl⟩)
  | getc => cases h; exact .inl (getcAttempt_endsOrGoesOn s).run
  | inp => cases h; exact .inl (inAttempt_endsOrGoesOn (s := s) (.put _ .refl)).run
  | puts | putsp => cases h; exact .inl (writeString_run ..)
  | ld | ldi | ldr | sti => cases h; exact .inl (by simp [loadReg, memWrite])
  | br => cases h; exact .inl (by split <;> rfl)
  | _ => cases h; exact .inl rfl

/-- HALT's words are the TRAP words with vector x25 (Table 44-1). -/
theorem trap_x25_of_decode_eq_halt {w : Word} {ign : BitVec 4} (h : decode w = .halt ign) :
    opcodeOf w = 0b1111#4 ∧ w.toNat % 256 = 0x25 := by
  have hw : w = encode (.trap ign vecHalt) := (encode_decode w).symm.trans (h ▸ rfl)
  rw [← field7to0_toNat, hw, opcodeOf_encode_trap, field7to0_encode_trap]
  exact ⟨rfl, rfl⟩

theorem decode_run_cases {w : Word} {s t : State} (h : exec (decode w) s = .next t) :
    t.run = s.run ∨ (t.run = .halted ∧ opcodeOf w = 0b1111#4 ∧ w.toNat % 256 = 0x25) ∨
      (t.run = .faulted { reason := reasonFor w, instr := w, pc := s.pc } ∧ Illegal w) := by
  obtain hrun | ⟨hrun, ign, hi⟩ | ⟨hi, rfl⟩ := exec_run_cases (decode_wf w) h
  · exact .inl hrun
  · exact .inr (.inl ⟨hrun, trap_x25_of_decode_eq_halt hi⟩)
  · rw [encode_decode]
    exact .inr (.inr ⟨rfl, (illegal_iff w).2 hi⟩)

/-- The host interrupts when its countdown is out, outside a string that never ends (R164, R168). -/
theorem State.interruptedNow_cases {s : State} (h : s.interruptedNow = true) :
    s.interruptIn = some 0 ∧ (s.pending = none ∨ s.pending = some .getc ∨ s.pending = some .inp) := by
  obtain ⟨hi, h0⟩ := Bool.and_eq_true_iff.1 h
  refine ⟨beq_iff_eq.1 h0, ?_⟩
  cases hp : s.pending with
  | none => exact .inl rfl
  | some p =>
    cases p with
    | getc => exact .inr (.inl rfl)
    | inp => exact .inr (.inr rfl)
    | endless => simp [State.interruptible, hp] at hi

/-- Settles O10: by the three things a step can be. -/
theorem aRunEndsInExactlyThreeWays : Obligations.ARunEndsInExactlyThreeWays := by
  intro s t h
  obtain ⟨hr, ⟨hi, rfl⟩ | ⟨-, hp, he⟩ | ⟨-, p, hp, rfl⟩⟩ := step_cases h
  · exact .inr (.inr (.inr ⟨rfl, s.interruptedNow_cases hi⟩))
  · rw [fetch_tick_fst] at he
    obtain hrun | ⟨hrun, hword⟩ | ⟨hrun, hill⟩ := decode_run_cases he
    · exact .inl (hrun.trans (by simpa using hr))
    · exact .inr (.inl ⟨hrun, hp, hword⟩)
    · exact .inr (.inr (.inl ⟨by simpa using hrun, hp, hill⟩))
  · have hrun : (resume p s.tick).run = s.tick.run := (resume_endsOrGoesOn (by simpa using hp)).run
    exact .inl (hrun.trans (s.tick_run.trans hr))

end Sys2Proof.Machine
end

section
/-! PROOFS. The operate instructions (spec/41_operate.md): each ends in `writeReg`, whose flag and frame are stated once,
so that what is left of each is the word it computes. -/

namespace Sys2Proof.Machine

theorem writeReg_sameRegs (dr : RegIx) (v : Word) (s : State) : SameRegsBut [dr] s (writeReg dr v s) := by
  intro q hq
  rw [writeReg_reg, if_neg (List.mem_singleton.not.1 hq)]

/-- The end `R[DR] <- v`, `setcc(v)` leaves the flag of the word in DR, and changes nothing but DR and COND (R27). -/
theorem writeReg_flag_frame (dr : RegIx) (v : Word) (s : State) :
    FlagFor ((writeReg dr v s).reg dr) (writeReg dr v s).cond ∧ SameRegsBut [dr] s (writeReg dr v s) ∧
      SameMemBut [] s (writeReg dr v s) ∧ (writeReg dr v s).pc = s.pc ∧ SameHost s (writeReg dr v s) ∧
      SameRun s (writeReg dr v s) :=
  ⟨writeReg_flagFor dr v s, writeReg_sameRegs dr v s, fun a _ => writeReg_word dr v s a, writeReg_pc dr v s,
    ⟨rfl, rfl, rfl⟩, ⟨rfl, rfl, rfl, rfl⟩⟩

/-- Settles O26: register form, the word's own addition; immediate form, the two's-complement sum. -/
theorem addWritesTheSumAndItsFlag : Obligations.AddWritesTheSumAndItsFlag := by
  refine fun s dr sr1 => ⟨fun sr2 ign => ⟨_, rfl, ?_, writeReg_flag_frame dr _ s⟩,
    fun imm5 => ⟨_, rfl, ?_, writeReg_flag_frame dr _ s⟩⟩
  · rw [writeReg_reg_self]
    exact BitVec.toNat_add (s.reg sr1) (s.reg sr2)
  · rw [writeReg_reg_self]
    exact add_sext_eq_addSigned (s.reg sr1) imm5

/-- ANDed with a sign-extended field, bit by bit: the field's sign bit stands for every bit above it (R11, R93). -/
theorem getLsbD_and_sext {n : Nat} (w : Word) (v : BitVec n) (k : Nat) :
    (w &&& sext v).getLsbD k = (w.getLsbD k && if k < n then v.getLsbD k else v.getLsbD (n - 1)) := by
  rw [BitVec.getLsbD_and]
  by_cases hk : k < 16
  · rw [getLsbD_sext v hk]
  · rw [BitVec.getLsbD_of_ge w k (Nat.le_of_not_lt hk), Bool.false_and, Bool.false_and]

/-- Settles O27: register form, the word's own AND; immediate form, by `getLsbD_and_sext`. -/
theorem andWritesTheBitwiseAndAndItsFlag : Obligations.AndWritesTheBitwiseAndAndItsFlag := by
  refine fun s dr sr1 => ⟨fun sr2 ign => ⟨_, rfl, fun k => ?_, writeReg_flag_frame dr _ s⟩,
    fun imm5 => ⟨_, rfl, fun k => ?_, writeReg_flag_frame dr _ s⟩⟩
  · rw [writeReg_reg_self]
    exact BitVec.getLsbD_and
  · rw [writeReg_reg_self]
    exact getLsbD_and_sext (s.reg sr1) imm5 k

/-- Settles O28: the complement of a word is `2^16 - 1` minus it. -/
theorem notWritesTheComplementAndItsFlag : Obligations.NotWritesTheComplementAndItsFlag := by
  refine fun s dr sr ign => ⟨_, rfl, ?_, writeReg_flag_frame dr _ s⟩
  rw [writeReg_reg_self]
  exact BitVec.toNat_not

end Sys2Proof.Machine
end

section
/-! PROOFS. The control instructions (spec/42_control.md): a control instruction sets the PC, after the link for JSR and
JSRR, so the frame is stated once for each of the two shapes; what is left of each instruction is its target. -/

namespace Sys2Proof.Machine

/-- BR's test is R100's: some condition bit that is 1 matches COND. -/
theorem branchTaken_iff {n z p : Bool} {cond : Word} :
    branchTaken n z p cond = true ↔
      (n = true ∧ cond = flagN ∨ z = true ∧ cond = flagZ ∨ p = true ∧ cond = flagP) := by
  simp [branchTaken, or_assoc]

theorem branchTaken_no_bits (cond : Word) : branchTaken false false false cond = false := rfl

/-- With every condition bit at 1 the test asks for any of the three flags (R26). -/
theorem branchTaken_all_bits (cond : Word) : branchTaken true true true cond = oneHot cond := by
  simp [branchTaken, oneHot]

/-- A jump changes nothing but the PC (R25). -/
theorem setPc_frame (v : Word) (s : State) :
    SameRegsBut [] s (s.setPc v) ∧ (s.setPc v).cond = s.cond ∧ SameMemBut [] s (s.setPc v) ∧ SameHost s (s.setPc v) ∧
      SameRun s (s.setPc v) :=
  ⟨fun r _ => s.reg_setPc v r, s.setPc_cond v, fun a _ => s.word_setPc v a, ⟨rfl, rfl, rfl⟩, ⟨rfl, rfl, rfl, rfl⟩⟩

theorem branch_eq_setPc (taken : Bool) (v : Word) (s : State) :
    (if taken then s.setPc v else s) = s.setPc (if taken then v else s.pc) := by
  cases taken <;> rfl

/-- A branch is a jump, to its target or to the PC it has: R100 with its frame. -/
theorem exec_br (n z p : Bool) (off : BitVec 9) (s : State) :
    exec (.br n z p off) s =
      .next (s.setPc (if branchTaken n z p s.cond then addSigned s.pc off else s.pc)) := by
  rw [← add_sext_eq_addSigned, ← branch_eq_setPc]
  rfl

/-- Settles O29: `exec_br`, by whether the branch is taken. -/
theorem brBranchesOnAMatchingFlag : Obligations.BrBranchesOnAMatchingFlag := by
  refine fun s n z p off => ⟨_, exec_br n z p off s, fun h => if_pos (branchTaken_iff.2 h),
    fun h => if_neg (mt branchTaken_iff.1 h), ?noBits, ?allBits, setPc_frame _ s⟩
  case noBits =>
    rintro rfl rfl rfl
    rw [branchTaken_no_bits]
    rfl
  case allBits =>
    rintro rfl rfl rfl hcond
    rw [branchTaken_all_bits, hcond]
    rfl

/-- Settles O30: RET is the jump through R7. -/
theorem jmpAndRetLoadThePc : Obligations.JmpAndRetLoadThePc := fun s _ _ =>
  ⟨fun base => ⟨_, rfl, s.setPc_pc (s.reg base), setPc_frame _ s⟩, ⟨_, rfl, s.setPc_pc (s.reg linkReg), setPc_frame _ s⟩⟩

/-- A call changes nothing but the PC and R7 (R102, R103). -/
theorem link_setPc_frame (v : Word) (s : State) :
    SameRegsBut [7#3] s ((link s).setPc v) ∧ ((link s).setPc v).cond = s.cond ∧ SameMemBut [] s ((link s).setPc v) ∧
      SameHost s ((link s).setPc v) ∧ SameRun s ((link s).setPc v) :=
  ⟨fun _ hr => s.reg_setReg_of_ne s.pc (List.mem_singleton.not.1 hr), rfl, fun _ _ => rfl, ⟨rfl, rfl, rfl⟩,
    ⟨rfl, rfl, rfl, rfl⟩⟩

/-- A call leaves in R7 the PC it was made with, the address of the next instruction (R82). -/
theorem link_setPc_linkReg (v : Word) (s : State) : ((link s).setPc v).reg 7#3 = s.pc :=
  s.reg_setReg_self linkReg s.pc

/-- Settles O31: the link leaves the PC, from which the target is then formed. -/
theorem jsrLinksAndJumps : Obligations.JsrLinksAndJumps := fun s off =>
  ⟨_, rfl, link_setPc_linkReg _ s, add_sext_eq_addSigned s.pc off, link_setPc_frame _ s⟩

/-- Settles O32: by `link_reg`, what the base register holds once R7 is written. -/
theorem jsrrLinksBeforeReadingItsBase : Obligations.JsrrLinksBeforeReadingItsBase := fun s base _ _ =>
  ⟨_, rfl, link_setPc_linkReg _ s, fun h => (link_reg base s).trans (if_pos h),
    fun h => (link_reg base s).trans (if_neg h), link_setPc_frame _ s⟩

end Sys2Proof.Machine
end

section
/-! PROOFS. Loads, LEA and stores (spec/43_load_store.md): the end of a load and the store are stated once with their
frames, from the state their access is made in; what is left of LDI and STI is that the read of the pointer before it
touches only memory and the host's input. -/

namespace Sys2Proof.Machine

/-! ## What a `MemRead` leaves (R43, R44) -/

section
variable {a : Word} {s t : State}

/-- A read writes no register, so a frame from the state it leaves is one from the state it was made in. -/
theorem SameRegsBut.of_afterRead {rs : List RegIx} (h : SameRegsBut rs (afterRead a s) t) : SameRegsBut rs s t :=
  fun q hq => (h q hq).trans (afterRead_reg a s q)

/-- A read leaves the run state, the service under way, the parameters and the output. -/
theorem SameRun.of_afterRead (h : SameRun (afterRead a s) t) : SameRun s t := by
  simpa only [SameRun, afterRead_run, afterRead_pending, afterRead_params, afterRead_out] using h

end

/-! ## Loads (R110, R111, R112) and LEA (R113) -/

/-- A load from any address but KBSR's: DR holds the stored word, and neither memory nor the host's input changes. -/
theorem loadReg_of_ne (dr : RegIx) {ea : Word} {s : State} (h : ea ≠ s.params.kbsrAddr) :
    (loadReg dr ea s).reg dr = s.word ea ∧ SameMemBut [] s (loadReg dr ea s) ∧ SameHost s (loadReg dr ea s) := by
  obtain ⟨-, -, hmem, -, hhost, -⟩ := writeReg_flag_frame dr (s.word ea) s
  rw [loadReg, memRead_of_ne h]
  exact ⟨writeReg_reg_self dr _ s, hmem, hhost⟩

/-- The end of a load: DR holds the word read and COND its flag; memory and the host's input are as the read leaves them,
that is unchanged but for a read of KBSR. -/
theorem loadReg_result_frame (dr : RegIx) (ea : Word) (s : State) :
    (loadReg dr ea s).reg dr = (memRead ea s).1 ∧ FlagFor (memRead ea s).1 (loadReg dr ea s).cond ∧
      SameRegsBut [dr] s (loadReg dr ea s) ∧ SameMemBut [] (memRead ea s).2 (loadReg dr ea s) ∧
      SameHost (memRead ea s).2 (loadReg dr ea s) ∧ (loadReg dr ea s).pc = s.pc ∧ SameRun s (loadReg dr ea s) ∧
      (ea ≠ s.params.kbsrAddr →
        (loadReg dr ea s).reg dr = s.word ea ∧ SameMemBut [] s (loadReg dr ea s) ∧ SameHost s (loadReg dr ea s)) := by
  obtain ⟨hflag, hregs, hmem, hpc, hhost, hrun⟩ := writeReg_flag_frame dr (memRead ea s).1 (memRead ea s).2
  rw [writeReg_reg_self] at hflag
  exact ⟨writeReg_reg_self _ _ _, hflag, hregs.of_afterRead, hmem, hhost, hpc.trans (afterRead_pc ea s),
    hrun.of_afterRead, loadReg_of_ne dr⟩

/-- Settles O33: the load of the PC-relative word. -/
theorem ldLoadsThePcRelativeWord : Obligations.LdLoadsThePcRelativeWord := fun s dr off =>
  ⟨_, rfl, loadReg_result_frame dr (pcRel9 off s) s⟩

/-- Settles O34: the load from the pointer, in the state the read of the pointer leaves. -/
theorem ldiLoadsThroughThePointer : Obligations.LdiLoadsThroughThePointer := by
  intro s dr off p r
  obtain ⟨hval, hflag, hregs, hmem, hhost, hpc, hrun, -⟩ := loadReg_result_frame dr p.1 p.2
  refine ⟨_, rfl, hval, hflag, hregs.of_afterRead, hmem, hhost, hpc.trans (afterRead_pc _ s), hrun.of_afterRead,
    fun hptr hdata => ?_⟩
  rw [memRead_of_ne hptr]
  exact loadReg_of_ne dr hdata

/-- Settles O35: the load of the word at base plus offset. -/
theorem ldrLoadsTheBasePlusOffsetWord : Obligations.LdrLoadsTheBasePlusOffsetWord := fun s dr base off =>
  ⟨_, rfl, loadReg_result_frame dr (baseOff6 base off s) s⟩

/-- Settles O36: `writeReg` of the address, which is `addSigned`. -/
theorem leaLoadsTheAddress : Obligations.LeaLoadsTheAddress := fun s dr off =>
  ⟨_, rfl, (writeReg_reg_self dr _ s).trans (add_sext_eq_addSigned s.pc off), writeReg_flag_frame dr _ s⟩

/-! ## Stores (R114, R115, R116) -/

/-- A store puts the word at the address and changes nothing else (R45). -/
theorem memWrite_stored_frame {s : State} (hm : s.mem.wf = true) (a v : Word) :
    (memWrite a v s).word a = v ∧ SameMemBut [a] s (memWrite a v s) ∧ SameRegsBut [] s (memWrite a v s) ∧
      (memWrite a v s).cond = s.cond ∧ (memWrite a v s).pc = s.pc ∧ SameHost s (memWrite a v s) ∧
      SameRun s (memWrite a v s) := by
  obtain ⟨hval, hmem, -, hframe⟩ := memWriteStoresAndDoesNothingElse s a v hm
  exact ⟨hval, hmem, hframe⟩

/-- Settles O37: the store at the PC-relative address. -/
theorem stStoresAtThePcRelativeAddress : Obligations.StStoresAtThePcRelativeAddress := fun s sr off hm =>
  ⟨_, rfl, memWrite_stored_frame hm (pcRel9 off s) (s.reg sr)⟩

/-- Settles O38: the store where the pointer points, in the state the read of the pointer leaves, where SR still holds its
word. -/
theorem stiStoresThroughThePointer : Obligations.StiStoresThroughThePointer := by
  intro s sr off hm p
  have hsr : p.2.reg sr = s.reg sr := afterRead_reg _ s sr
  obtain ⟨hval, hmem, hregs, hcond, hpc, hhost, hrun⟩ :=
    memWrite_stored_frame (afterRead_wf (pcRel9 off s) hm) p.1 (p.2.reg sr)
  refine ⟨_, rfl, hval.trans hsr, hmem, hregs.of_afterRead, hcond.trans (afterRead_cond _ s),
    hpc.trans (afterRead_pc _ s), hhost, hrun.of_afterRead, fun hptr => ?_⟩
  rw [memRead_of_ne hptr]
  exact ⟨word_memWrite_self hm _ _, memWrite_sameMem _ _ s, memWrite_sameHost _ _ s⟩

/-- Settles O39: the store at base plus offset. -/
theorem strStoresAtBasePlusOffset : Obligations.StrStoresAtBasePlusOffset := fun s sr base off hm =>
  ⟨_, rfl, memWrite_stored_frame hm (baseOff6 base off s) (s.reg sr)⟩

end Sys2Proof.Machine
end

section
/-! PROOFS. The trap services (spec/44_trap.md): the character services by what their attempt to read finds, the string
services by the string in memory, and, over every step and every instruction, the output stream. -/

namespace Sys2Proof.Machine

/-! ## The dispatcher (R130, R137) -/

/-- A fault changes nothing but the run state (R161). -/
theorem raiseFault_frame (reason : FaultReason) (instr : Word) (s : State) :
    (raiseFault reason instr s).pc = s.pc ∧ SameRegsBut [] s (raiseFault reason instr s) ∧
      (raiseFault reason instr s).cond = s.cond ∧ SameMemBut [] s (raiseFault reason instr s) ∧
      SameHost s (raiseFault reason instr s) ∧ (raiseFault reason instr s).pending = s.pending ∧
      (raiseFault reason instr s).params = s.params ∧ (raiseFault reason instr s).out = s.out :=
  ⟨rfl, fun _ _ => rfl, rfl, fun _ _ => rfl, ⟨rfl, rfl, rfl⟩, rfl, rfl, rfl⟩

theorem exec_trap_unsupported (ign : BitVec 4) {vect : BitVec 8} (h : vect ∉ serviceVectors) (s : State) :
    exec (.trap ign vect) s = .next (raiseFault (.unsupportedTrap vect) (encode (.trap ign vect)) s) :=
  congrArg Host.Outcome.next (trapDispatch_unsupported (by simpa using h) _ s)

/-- Settles O40: the six vectors by computation, any other by `exec_trap_unsupported`. -/
theorem trapDispatchesOnItsVector : Obligations.TrapDispatchesOnItsVector := by
  refine fun s ign => ⟨rfl, rfl, rfl, rfl, rfl, rfl, fun vect hv => ?_⟩
  have hvect : vect ∉ serviceVectors := by rw [mem_serviceVectors_iff]; omega
  exact ⟨_, exec_trap_unsupported ign hvect s, rfl, raiseFault_frame _ _ s⟩

/-! ## GETC and IN: one attempt to read a character (R138) -/

/-- What a service writes of the character it reads: IN its low byte (R134), GETC nothing. -/
def echo (p : Pending) (c : Word) : List Byte := if p = .inp then [lowByte c] else []

/-- The end of GETC and IN: the echo, then the character in R0 and its flag in COND (R131, R134). -/
def deliver (p : Pending) (c : Word) (s : State) : State :=
  (writeReg trapReg c (putBytes (echo p c) s)).setPending none

@[simp] theorem putBytes_nil (s : State) : putBytes [] s = s := congrArg s.setOut (List.append_nil s.out)

section
variable {s u : State} {p : Pending}

theorem resume_of_char {c : Word} (hp : p = .getc ∨ p = .inp) (h : hostGetChar s = (some c, u)) :
    resume p s = deliver p c u := by
  obtain rfl | rfl := hp
  · simp [resume, getcAttempt, h, deliver, echo]
  · simp [resume, inAttempt, h, deliver, echo]

theorem resume_of_no_char (hp : p = .getc ∨ p = .inp) (h : hostGetChar s = (none, u)) :
    resume p s = u.setPending (some p) := by
  obtain rfl | rfl := hp
  · simp [resume, getcAttempt, h]
  · simp [resume, inAttempt, h]

/-! The four things the host can do at the attempt (R138, D10). -/

theorem resume_of_byte {c : Byte} {rest : HostInput} (hp : p = .getc ∨ p = .inp) (h : s.hostIn = .byte c rest) :
    resume p s = deliver p (zext8 c) (s.setHostIn rest) :=
  resume_of_char hp (by rw [hostGetChar, h])

theorem resume_of_ended (hp : p = .getc ∨ p = .inp) (h : s.hostIn = .ended) :
    resume p s = deliver p (Config.hostEofChar s.eofDraws) (s.setEofDraws (s.eofDraws + 1)) :=
  resume_of_char hp (by rw [hostGetChar, h])

theorem resume_of_later {rest : HostInput} (hp : p = .getc ∨ p = .inp) (h : s.hostIn = .later rest) :
    resume p s = (s.setHostIn rest).setPending (some p) :=
  resume_of_no_char hp (by rw [hostGetChar, h])

theorem resume_of_silent (hp : p = .getc ∨ p = .inp) (h : s.hostIn = .silent) :
    resume p s = s.setPending (some p) :=
  resume_of_no_char hp (by rw [hostGetChar, h])

/-- Without a byte the service goes on, and no more than the host's transaction is used up. -/
theorem resume_of_no_byte (hp : p = .getc ∨ p = .inp) (h : s.hostIn = .silent ∨ ∃ rest, s.hostIn = .later rest) :
    ∃ h', resume p s = (s.setHostIn h').setPending (some p) := by
  obtain h | ⟨rest, h⟩ := h
  · exact ⟨s.hostIn, resume_of_silent hp h⟩
  · exact ⟨rest, resume_of_later hp h⟩

end

theorem exec_getc (ign : BitVec 4) (s : State) : exec (.getc ign) s = .next (resume .getc s) := rfl

/-- IN's prompt is written before the first attempt (R134). -/
theorem exec_inp (ign : BitVec 4) (s : State) :
    exec (.inp ign) s = .next (resume .inp (putBytes s.params.inPrompt s)) := rfl

section
variable {p : Pending} {c : Word} {s : State}

theorem deliver_reg_zero : (deliver p c s).reg 0#3 = c := writeReg_reg_self trapReg c _

theorem deliver_flagFor : FlagFor ((deliver p c s).reg 0#3) (deliver p c s).cond := writeReg_flagFor trapReg c _

theorem deliver_out : (deliver p c s).out = s.out ++ if p = .inp then [lowByte c] else [] := rfl

theorem deliver_reg_of_not_mem {r : RegIx} (hr : r ∉ [0#3]) : (deliver p c s).reg r = s.reg r :=
  writeReg_sameRegs trapReg c _ r hr

end

/-! A byte as a character: zero-extended (R138, D10), it is never Negative. -/

theorem zext8_toNat (c : Byte) : (zext8 c).toNat = c.toNat := toNat_zext c (by decide)

theorem lowByte_zext8 (c : Byte) : lowByte (zext8 c) = c :=
  BitVec.eq_of_toNat_eq (by
    rw [lowByte, BitVec.extractLsb'_toNat, zext8_toNat, Nat.shiftRight_zero, Nat.mod_eq_of_lt c.isLt])

theorem flagOf_zext8 (c : Byte) : flagOf (zext8 c) = if c.toNat = 0 then flagZ else flagP := by
  have hc := zext8_toNat c
  split
  · next h => exact flagOf_of_toNat_eq_zero (hc.trans h)
  · exact flagOf_of_toNat_between (by omega) (by omega)

section
variable {p : Pending} {c : Byte} {s : State}

theorem deliver_zext8_reg : ((deliver p (zext8 c) s).reg 0#3).toNat = c.toNat := by
  rw [deliver_reg_zero, zext8_toNat]

theorem deliver_zext8_cond : (deliver p (zext8 c) s).cond = if c.toNat = 0 then flagZ else flagP := flagOf_zext8 c

theorem deliver_zext8_out : (deliver p (zext8 c) s).out = s.out ++ if p = .inp then [c] else [] := by
  rw [deliver_out, lowByte_zext8]

end

/-- Settles O41: the host's byte, delivered with no echo. -/
theorem getcDeliversTheNextByte : Obligations.GetcDeliversTheNextByte := by
  intro s ign c rest h
  rw [exec_getc, resume_of_byte (.inl rfl) h]
  exact ⟨_, rfl, deliver_zext8_reg, deliver_zext8_cond, rfl, deliver_zext8_out.trans (List.append_nil _), rfl,
    fun _ hq => deliver_reg_of_not_mem hq, fun _ _ => rfl, rfl, rfl, rfl, rfl, rfl⟩

/-- Settles O42: the host's byte, delivered with its echo after the prompt. -/
theorem inPromptsEchoesAndDelivers : Obligations.InPromptsEchoesAndDelivers := by
  intro s ign c rest h
  rw [exec_inp, resume_of_byte (s := putBytes _ s) (.inr rfl) h]
  exact ⟨_, rfl, deliver_zext8_reg, deliver_zext8_cond, rfl, deliver_zext8_out, rfl,
    fun _ hq => deliver_reg_of_not_mem hq, fun _ _ => rfl, rfl, rfl, rfl, rfl, rfl⟩

/-- Settles O43: `HOST_EOF` is delivered as a character is. -/
theorem endOfInputDeliversHostEof : Obligations.EndOfInputDeliversHostEof := by
  intro s ign h
  constructor
  · rw [exec_getc, resume_of_ended (.inl rfl) h]
    exact ⟨_, rfl, deliver_reg_zero, deliver_flagFor, h, rfl, List.append_nil _,
      fun _ hq => deliver_reg_of_not_mem hq, fun _ _ => rfl, rfl, rfl⟩
  · rw [exec_inp, resume_of_ended (s := putBytes _ s) (.inr rfl) h]
    exact ⟨_, rfl, deliver_reg_zero, deliver_flagFor, h, rfl, ⟨_, rfl⟩, fun _ hq => deliver_reg_of_not_mem hq,
      fun _ _ => rfl, rfl, rfl⟩

/-! ## The wait (R138, log 20) -/

/-- Settles O44: an attempt that finds nothing takes no more than the host's transaction. -/
theorem withoutACharacterGetcAndInWait : Obligations.WithoutACharacterGetcAndInWait := by
  intro s ign h
  constructor
  · obtain ⟨h', hwait⟩ := resume_of_no_byte (.inl rfl) h
    rw [exec_getc, hwait]
    exact ⟨_, rfl, rfl, rfl, fun _ _ => rfl, rfl, fun _ _ => rfl, rfl, rfl⟩
  · obtain ⟨h', hwait⟩ := resume_of_no_byte (s := putBytes s.params.inPrompt s) (.inr rfl) h
    rw [exec_inp, hwait]
    exact ⟨_, rfl, rfl, rfl, fun _ _ => rfl, rfl, fun _ _ => rfl, rfl, rfl⟩

/-- A step in which a service is under way does nothing but go on with it. -/
theorem step_of_pending {s : State} {p : Pending} (hr : s.run = .running) (hi : s.interruptedNow = false)
    (hp : s.pending = some p) : step s = .next (resume p s.tick) := by
  rw [step_running hr hi, advance, State.tick_pending, hp]

theorem State.setPending_of_pending {s : State} {p : Option Pending} (h : s.pending = p) : s.setPending p = s := by
  rw [← h]; rfl

/-- In the wait the host may interrupt, so the boundary takes one off its countdown (log 19). -/
theorem State.tick_of_waiting {s : State} {p : Pending} (h : p = .getc ∨ p = .inp) (hp : s.pending = some p) :
    s.tick = s.setInterruptIn (s.interruptIn.map (· - 1)) := by
  obtain rfl | rfl := h <;> simp [State.tick, State.interruptible, hp]

/-- Settles O45: the step is one attempt to read a character, by what the host does. -/
theorem aWaitRunsNoOtherInstruction : Obligations.AWaitRunsNoOtherInstruction := by
  intro s p hr hint hp hpend
  have hnow : s.interruptedNow = false := by simp [State.interruptedNow, hint]
  have htick := State.tick_of_waiting hp hpend
  rw [step_of_pending hr hnow hpend]
  refine ⟨fun h => ?_, fun rest h => ?_, fun c rest h => ?_, fun h => ?_⟩
  · rw [resume_of_silent hp (s.tick_hostIn.trans h), State.setPending_of_pending (s.tick_pending.trans hpend), htick]
  · rw [resume_of_later hp (s.tick_hostIn.trans h), htick]
    exact congrArg Host.Outcome.next (State.setPending_of_pending (s := (s.setInterruptIn _).setHostIn rest) hpend)
  · rw [resume_of_byte hp (s.tick_hostIn.trans h), htick]
    exact ⟨_, rfl, rfl, hr, deliver_zext8_reg, deliver_zext8_cond, rfl, deliver_zext8_out, rfl,
      fun _ hq => deliver_reg_of_not_mem hq, fun _ _ => rfl, rfl, rfl, rfl⟩
  · rw [resume_of_ended hp (s.tick_hostIn.trans h), htick]
    exact ⟨_, rfl, rfl, hr, deliver_reg_zero, deliver_flagFor, h, ⟨_, deliver_out⟩, rfl,
      fun _ hq => deliver_reg_of_not_mem hq, fun _ _ => rfl, rfl, rfl⟩

/-! ## OUT and HALT (R132, R136) -/

/-- Settles O46: the byte is R0's bits [7:0], its value modulo 256. -/
theorem outWritesTheLowByteOfR0 : Obligations.OutWritesTheLowByteOfR0 := fun s _ =>
  ⟨_, rfl, ⟨lowByte (s.reg 0#3), field7to0_toNat _, rfl⟩, fun _ _ => rfl, rfl, fun _ _ => rfl, rfl, ⟨rfl, rfl, rfl⟩,
    rfl, rfl, rfl⟩

/-- Settles O50: the notice, then a run state in which there is no step (R80). -/
theorem haltWritesTheNoticeAndHalts : Obligations.HaltWritesTheNoticeAndHalts := fun _ _ =>
  ⟨_, rfl, rfl, rfl, fun _ _ => rfl, rfl, fun _ _ => rfl, rfl, ⟨rfl, rfl, rfl⟩, rfl, rfl, nofun⟩

/-! ## PUTS and PUTSP (R133, R135) -/

theorem putsChars_eq_putsText : putsChars = putsText :=
  funext fun w => congrArg (fun c : Byte => [c]) (BitVec.eq_of_toNat_eq (by simp [lowByte]))

theorem putspChars_eq_putspText : putspChars = putspText := by
  funext w
  have hlow : lowByte w = BitVec.ofNat 8 w.toNat := BitVec.eq_of_toNat_eq (by simp [lowByte])
  have hhigh : highByte w = BitVec.ofNat 8 (w.toNat / 256) :=
    BitVec.eq_of_toNat_eq (by simp [highByte, Nat.shiftRight_eq_div_pow])
  have hzero : highByte w = 0#8 ↔ w.toNat / 256 = 0 := by
    have := w.isLt
    rw [hhigh, ← BitVec.toNat_inj, BitVec.toNat_ofNat, BitVec.toNat_ofNat]
    omega
  rw [putspChars, putspText]
  by_cases h : w.toNat / 256 = 0
  · rw [if_pos (hzero.2 h), if_pos h, hlow]
  · rw [if_neg (mt hzero.1 h), if_neg h, hlow, hhigh]

theorem exec_puts (ign : BitVec 4) (s : State) :
    exec (.puts ign) s = .next (writeString putsText (s.reg 0#3) s) := by
  rw [← putsChars_eq_putsText]; rfl

theorem exec_putsp (ign : BitVec 4) (s : State) :
    exec (.putsp ign) s = .next (writeString putspText (s.reg 0#3) s) := by
  rw [← putspChars_eq_putspText]; rfl

/-- One turn of the loop after output that it has written already. -/
theorem readString_succ_putBytes (chars : Word → List Byte) (n : Nat) (a : Word) (written : List Byte) (s : State) :
    readString chars (n + 1) a (putBytes written s) =
      if (memRead a s).1 = 0#16 then (none, putBytes written (memRead a s).2)
      else readString chars n (a + 1#16) (putBytes (written ++ chars (memRead a s).1) (memRead a s).2) := by
  rw [readString_succ, afterRead_putBytes, putBytes_putBytes]
  rfl

section
variable {chars : Word → List Byte} {a : Word} {s s' : State} {n : Nat} {bs : List Byte}

/-- The loop reads a string that ends and writes it after what it has written already. -/
theorem StringRead.readString_putBytes (h : StringRead chars a s n bs s') (written : List Byte) :
    readString chars (n + 1) a (putBytes written s) = (none, putBytes (written ++ bs) s') := by
  induction h generalizing written with
  | stop hz => rw [readString_succ_putBytes, if_pos hz, List.append_nil]
  | more hz _ ih => rw [readString_succ_putBytes, if_neg hz, ih, List.append_assoc]

theorem StringRead.readString (h : StringRead chars a s n bs s') :
    readString chars (n + 1) a s = (none, putBytes bs s') := by
  simpa using h.readString_putBytes []

theorem StringRead.out (h : StringRead chars a s n bs s') : s'.out = s.out := by
  induction h with
  | stop => exact afterRead_out _ _
  | more _ _ ih => exact ih.trans (afterRead_out _ _)

/-- What a service of strings leaves of a string that ends: its characters in the output, memory and the host's input as
the reads left them, all else as before. -/
theorem StringRead.writeString_frame (hm : s.mem.wf = true) (h : StringRead chars a s n bs s') :
    (writeString chars a s).out = s.out ++ bs ∧ (writeString chars a s).pending = s.pending ∧
      SameRegsBut [] s (writeString chars a s) ∧ (writeString chars a s).cond = s.cond ∧
      SameMemBut [] s' (writeString chars a s) ∧ (writeString chars a s).pc = s.pc ∧
      SameHost s' (writeString chars a s) ∧ (writeString chars a s).run = s.run ∧
      (writeString chars a s).params = s.params := by
  have hwritten : writeString chars a s = putBytes bs s' := writeString_of_ends hm h.readString
  have htrans : Transacts s (putBytes bs s') := by
    simpa [h.readString] using Transacts.readString chars (n + 1) a s
  rw [hwritten]
  exact ⟨congrArg (· ++ bs) h.out, htrans.pending, fun r _ => htrans.reg r, htrans.cond, fun _ _ => rfl, htrans.pc,
    ⟨rfl, rfl, rfl⟩, htrans.run, htrans.params⟩

end

/-- Settles O47: PUTS and PUTSP are one service of strings, with two ways to write a word. -/
theorem stringServicesWriteTheString : Obligations.StringServicesWriteTheString := fun s _ ign _ _ hm =>
  ⟨fun h => ⟨_, exec_puts ign s, h.writeString_frame hm⟩, fun h => ⟨_, exec_putsp ign s, h.writeString_frame hm⟩⟩

/-! ## A string that never ends (R133, log 21) -/

/-- The loop over `n` words meets the zero word that ends the string, or passes them all and writes their characters. -/
theorem readString_ends_or_passes (chars : Word → List Byte) (n : Nat) (a : Word) (s : State) (written : List Byte) :
    (∃ m bs s', StringRead chars a s m bs s') ∨
      (readString chars n a (putBytes written s)).1 ≠ none ∧
        ∃ bs, StringOn chars a s n bs ∧
          (readString chars n a (putBytes written s)).2.out = s.out ++ (written ++ bs) := by
  induction n generalizing a s written with
  | zero => exact .inr ⟨nofun, [], .start, by rw [List.append_nil]; rfl⟩
  | succ n ih =>
    by_cases hz : (memRead a s).1 = 0#16
    · exact .inl ⟨0, [], _, .stop hz⟩
    rw [readString_succ_putBytes, if_neg hz]
    obtain ⟨m, bs, s', h⟩ | ⟨hpass, bs, h, hout⟩ :=
      ih (a + 1#16) (memRead a s).2 (written ++ chars (memRead a s).1)
    · exact .inl ⟨m + 1, _, s', .more hz h⟩
    · refine .inr ⟨hpass, _, .more hz h, ?_⟩
      rw [hout, memRead_snd, afterRead_out, List.append_assoc written]

section
variable {chars : Word → List Byte} {a : Word} {s : State}

theorem readString_of_not_ends (h : ¬ ∃ n bs s', StringRead chars a s n bs s') (n : Nat) :
    (readString chars n a s).1 ≠ none ∧
      ∃ bs, StringOn chars a s n bs ∧ (readString chars n a s).2.out = s.out ++ bs := by
  have hpasses := (readString_ends_or_passes chars n a s []).resolve_left h
  rwa [putBytes_nil] at hpasses

/-- A service whose string never ends is left to go on, and its rounds are the characters of the words in order. -/
theorem writeString_of_not_ends (hm : s.mem.wf = true) (h : ¬ ∃ n bs s', StringRead chars a s n bs s') :
    ∃ bs round, writeString chars a s = (s.setOut (s.out ++ bs)).setPending (some (.endless round)) ∧
      ∀ k, ∃ n ≥ k, StringOn chars a s n (bs ++ (List.replicate k round).flatten) := by
  obtain ⟨bs, round, hwrite, hrounds⟩ := writeString_of_endless hm fun n => (readString_of_not_ends h n).1
  refine ⟨bs, round, hwrite, fun k => ⟨stringBound s + memoryWords * k, ?_, ?_⟩⟩
  · exact (Nat.le_mul_of_pos_left k (by decide)).trans (Nat.le_add_left _ _)
  · obtain ⟨-, bs', hon, hout⟩ := readString_of_not_ends h (stringBound s + memoryWords * k)
    rwa [List.append_cancel_left ((hrounds k).symm.trans hout)]

end

/-- Inside a string that never ends the host does not interrupt, and no boundary counts down (R164). -/
theorem step_of_endless {s : State} {round : List Byte} (hr : s.run = .running)
    (hp : s.pending = some (.endless round)) : step s = .next (s.setOut (s.out ++ round)) := by
  have hint : s.interruptible = false := by simp [State.interruptible, hp]
  have htick : s.tick = s := by simp [State.tick, hint]
  rw [step_of_pending hr (by simp [State.interruptedNow, hint]) hp, htick]
  rfl

/-- Settles O49: the loop passes every word, and a step writes one round more. -/
theorem anUnendedStringServiceGoesOn : Obligations.AnUnendedStringServiceGoesOn := by
  refine ⟨?_, fun _ _ => step_of_endless⟩
  rintro s ign i chars hm (⟨rfl, rfl⟩ | ⟨rfl, rfl⟩) hnever
  · obtain ⟨bs, round, hwrite, hrounds⟩ := writeString_of_not_ends hm hnever
    exact ⟨bs, round, by rw [exec_puts, hwrite], hrounds⟩
  · obtain ⟨bs, round, hwrite, hrounds⟩ := writeString_of_not_ends hm hnever
    exact ⟨bs, round, by rw [exec_putsp, hwrite], hrounds⟩

/-! ## The output stream and the parameters (R7, R139, R169) -/

section
variable {i : Instr} {s t : State}

theorem Transacts.out_grows (h : Transacts s t) : ∃ bs, t.out = s.out ++ bs := by
  induction h with
  | refl => exact ⟨[], (List.append_nil _).symm⟩
  | read _ _ ih | getChar _ ih => simpa using ih
  | put bs _ ih =>
    obtain ⟨b, hb⟩ := ih
    exact ⟨b ++ bs, by rw [putBytes_out, hb, List.append_assoc]⟩

/-- Output is only appended to (R139), and the parameters are fixed (R7). -/
def GrowsOutput (s t : State) : Prop := (∃ bs, t.out = s.out ++ bs) ∧ t.params = s.params

theorem GrowsOutput.of_eq (hout : t.out = s.out) (hparams : t.params = s.params) : GrowsOutput s t :=
  ⟨⟨[], hout.trans (List.append_nil _).symm⟩, hparams⟩

theorem Transacts.growsOutput (h : Transacts s t) : GrowsOutput s t := ⟨h.out_grows, h.params⟩

theorem Effect.growsOutput (h : Effect i s t) : GrowsOutput s t := by
  cases h with
  | result _ _ _ _ hu | store _ _ _ hu | char _ _ _ hu | goesOn _ hu | output _ hu | halt _ hu => exact hu.growsOutput
  | jump | call | fault => exact .of_eq rfl rfl

theorem resume_growsOutput {p : Pending} (hp : s.pending = some p) : GrowsOutput s (resume p s) := by
  obtain ⟨u, hu, ⟨c, e⟩ | e⟩ := resume_endsOrGoesOn hp <;> rw [e] <;> exact hu.growsOutput

theorem step_growsOutput (h : step s = .next t) : GrowsOutput s t := by
  obtain ⟨-, ⟨-, rfl⟩ | ⟨-, -, he⟩ | ⟨-, p, hp, rfl⟩⟩ := step_cases h
  · exact .of_eq rfl rfl
  · have hgrows := (exec_effect he).growsOutput
    simpa [GrowsOutput] using hgrows
  · have hgrows := resume_growsOutput (s.tick_pending.trans hp)
    simpa [GrowsOutput] using hgrows

end

theorem getcAttempt_out (s : State) : (getcAttempt s).out = s.out := by
  obtain ⟨c, -, e⟩ | ⟨-, e⟩ := getcAttempt_cases s <;> simp [e]

/-- Of the vectors that write no output, x20 is GETC's and the others are unsupported. -/
theorem trapDispatch_out {vect : BitVec 8} {ign : BitVec 4} (h : writesOutput (.trap ign vect) = false) (instr : Word)
    (s : State) : (trapDispatch vect instr s).out = s.out := by
  by_cases hgetc : vect = vecGetc
  · subst hgetc
    exact getcAttempt_out s
  · have hvect : serviceVectors.contains vect = false := by
      rw [serviceVectors, List.contains_cons, beq_false_of_ne hgetc]
      exact h
    rw [trapDispatch_unsupported hvect, raiseFault_out]

theorem exec_out_of_not_writesOutput {i : Instr} {s t : State} (h : exec i s = .next t)
    (hi : writesOutput i = false) : t.out = s.out := by
  cases i with
  | out | puts | inp | putsp | halt => cases hi
  | trap => cases h; exact trapDispatch_out hi _ s
  | getc => cases h; exact getcAttempt_out s
  | ld | ldi | ldr | sti => cases h; simp [loadReg, memWrite]
  | br => cases h; split <;> rfl
  | _ => cases h; rfl

/-- Settles O59: over the steps by what a step can be, over the instructions one by one. -/
theorem outputOnlyGrowsAndOnlyByServices : Obligations.OutputOnlyGrowsAndOnlyByServices :=
  ⟨fun _ _ => step_growsOutput, fun _ _ _ => exec_out_of_not_writesOutput⟩

end Sys2Proof.Machine
end

section
/-! PROOFS. The reserved opcodes (spec/45_reserved.md): RTI and opcode 1101 fault, whatever their low bits (R150, R151,
R161). -/

namespace Sys2Proof

/-- An opcode over twelve low bits is those bits appended to it, and so a sum of numbers (R61). -/
theorem opcodeWord_toNat (op : BitVec 4) (low : BitVec 12) :
    (place op 12 ||| place low 0).toNat = op.toNat * 0x1000 + low.toNat := by
  have happend : place op 12 ||| place low 0 = op ++ low := by
    rw [BitVec.append_def, BitVec.shiftLeftZeroExtend_eq, BitVec.setWidth'_eq, place, place, BitVec.shiftLeft_zero]
  rw [happend, BitVec.toNat_append, ← Nat.shiftLeft_add_eq_or_of_lt low.isLt, Nat.shiftLeft_eq]

end Sys2Proof

namespace Sys2Proof.Machine

theorem exec_rti (ign : BitVec 12) (s : State) :
    exec (.rti ign) s = .next (raiseFault (.reservedOpcode 0b1000#4) (encode (.rti ign)) s) := rfl

theorem exec_reserved (ign : BitVec 12) (s : State) :
    exec (.reserved ign) s = .next (raiseFault (.reservedOpcode 0b1101#4) (encode (.reserved ign)) s) := rfl

/-- What an instruction of a reserved opcode does, its word the opcode over the low bits. -/
theorem exec_reservedOpcode_frame {i : Instr} {op : BitVec 4} {low : BitVec 12} {s : State}
    (he : exec i s = .next (raiseFault (.reservedOpcode op) (encode i) s))
    (hw : encode i = place op 12 ||| place low 0) :
    ∃ t, exec i s = .next t ∧ t.run = .faulted { reason := .reservedOpcode op, instr := encode i, pc := s.pc } ∧
      (encode i).toNat = op.toNat * 0x1000 + low.toNat ∧
      SameRegsBut [] s t ∧ t.cond = s.cond ∧ SameMemBut [] s t ∧ t.pc = s.pc ∧ SameHost s t ∧
      t.pending = s.pending ∧ t.params = s.params ∧ t.out = s.out := by
  have hword : (encode i).toNat = op.toNat * 0x1000 + low.toNat := by rw [hw, opcodeWord_toNat]
  obtain ⟨hpc, hregs, hcond, hmem, hhost, hrest⟩ := raiseFault_frame (.reservedOpcode op) (encode i) s
  exact ⟨_, he, raiseFault_run _ _ s, hword, hregs, hcond, hmem, hpc, hhost, hrest⟩

/-- Settles O51: `exec_reservedOpcode_frame` at the two reserved opcodes. -/
theorem reservedOpcodesFault : Obligations.ReservedOpcodesFault := fun s ign =>
  ⟨exec_reservedOpcode_frame (exec_rti ign s) rfl, exec_reservedOpcode_frame (exec_reserved ign s) rfl⟩

end Sys2Proof.Machine
end

section
/-! PROOFS. Exceptions (spec/60_exceptions.md): a fault is precise (R161, R83), and a host interruption ends the run and
changes nothing else (R168). -/

namespace Sys2Proof.Machine

/-! ## The step that faults (R161) -/

/-- What a step does before it executes, where its fetch does not poll, changes only the PC and the countdown (R83). -/
theorem tick_setPc_frame (s : State) (v : Word) :
    SameRegsBut [] s (s.tick.setPc v) ∧ (s.tick.setPc v).cond = s.cond ∧ SameMemBut [] s (s.tick.setPc v) ∧
      (s.tick.setPc v).out = s.out ∧ (s.tick.setPc v).hostIn = s.hostIn ∧ (s.tick.setPc v).params = s.params :=
  ⟨fun r _ => s.tick_reg r, s.tick_cond, fun a _ => s.tick_word a, s.tick_out, s.tick_hostIn, s.tick_params⟩

/-- A ready machine with an illegal word at its PC raises that word's fault at the incremented PC (R67, R161). -/
theorem step_of_illegal {s : State} (h : Ready s) (hpc : s.pc ≠ s.params.kbsrAddr) (hill : Illegal (s.word s.pc)) :
    step s = .next (raiseFault (reasonFor (s.word s.pc)) (s.word s.pc) (s.tick.setPc (s.pc + 1#16))) := by
  rw [step_of_word h hpc (decode_wf _) (encode_decode _).symm, exec_of_illegal hill]

/-- Settles O52: the step raises the word's fault (`step_of_illegal`), which changes nothing but the run state, after a
fetch that changes nothing but the PC and the host's countdown. -/
theorem aFaultIsPrecise : Obligations.AFaultIsPrecise := by
  intro s hready hpc hill
  exact ⟨_, step_of_illegal hready hpc hill, rfl, rfl, tick_setPc_frame s (s.pc + 1#16)⟩

/-! ## The host interruption (R168) -/

/-- Between two steps and in the wait of GETC or IN, a countdown that is out interrupts now (R168). -/
theorem State.interruptedNow_iff {s : State} :
    s.interruptedNow = true ↔
      s.interruptIn = some 0 ∧ (s.pending = none ∨ s.pending = some .getc ∨ s.pending = some .inp) := by
  refine ⟨s.interruptedNow_cases, fun ⟨h0, hp⟩ => ?_⟩
  obtain hp | hp | hp := hp <;> simp [State.interruptedNow, State.interruptible, h0, hp]

/-- A Running machine that the host interrupts is cancelled by the step (R168). -/
theorem step_of_interruptedNow {s : State} (hr : s.run = .running) (hi : s.interruptedNow = true) :
    step s = .next s.cancel := by
  simp [step, hr, hi]

/-- A cancellation changes nothing but the run state and the service under way (R168). -/
theorem State.cancel_frame (s : State) :
    SameRegsBut [] s s.cancel ∧ s.cancel.cond = s.cond ∧ s.cancel.pc = s.pc ∧ SameMemBut [] s s.cancel ∧
      s.cancel.out = s.out ∧ s.cancel.hostIn = s.hostIn ∧ s.cancel.params = s.params :=
  ⟨fun r _ => s.cancel_reg r, s.cancel_cond, s.cancel_pc, fun a _ => s.cancel_word a, s.cancel_out, s.cancel_hostIn,
    s.cancel_params⟩

/-- Settles O53: the host interrupts now, and `cancel` changes only the run state and the service under way. -/
theorem aHostInterruptionCancelsTheRun : Obligations.AHostInterruptionCancelsTheRun := by
  intro s hr h0 hp
  exact ⟨_, step_of_interruptedNow hr (State.interruptedNow_iff.2 ⟨h0, hp⟩), s.cancel_run, s.cancel_pending,
    s.cancel_frame⟩

end Sys2Proof.Machine
end

section
/-! PROOFS. Reset, loading and the start of execution (spec/70_reset_and_hazards.md R180 to R184). -/

namespace Sys2Proof.Machine

/-! ## The bytes of an image as words (R182) -/

/-- The word that the `i`-th pair of bytes spells, high byte first; bytes past the end count as zero. -/
def pairWord (b : List Byte) (i : Nat) : Word :=
  BitVec.ofNat 16 ((b.getD (2 * i) 0#8).toNat * 256 + (b.getD (2 * i + 1) 0#8).toNat)

theorem toNat_pairWord (b : List Byte) (i : Nat) :
    (pairWord b i).toNat = (b.getD (2 * i) 0#8).toNat * 256 + (b.getD (2 * i + 1) 0#8).toNat :=
  Nat.mod_eq_of_lt (by omega)

/-- The origin (R182). -/
theorem toNat_pairWord_zero (b : List Byte) :
    (pairWord b 0).toNat = (b.getD 0 0#8).toNat * 256 + (b.getD 1 0#8).toNat :=
  toNat_pairWord b 0

/-- Word `i` of the program, which stands after the origin (R182). -/
theorem toNat_pairWord_succ (b : List Byte) (i : Nat) :
    (pairWord b (i + 1)).toNat = (b.getD (2 + 2 * i) 0#8).toNat * 256 + (b.getD (3 + 2 * i) 0#8).toNat := by
  rw [toNat_pairWord, show 2 * (i + 1) = 2 + 2 * i by omega, show 2 + 2 * i + 1 = 3 + 2 * i by omega]

theorem bigEndianWords_of_odd {b : List Byte} (h : b.length % 2 = 1) : bigEndianWords b = none := by
  induction b using bigEndianWords.induct with
  | case1 => contradiction
  | case2 => rfl
  | case3 hi lo rest ih =>
    have hrest : rest.length % 2 = 1 := (Nat.add_mod_right _ 2).symm.trans h
    rw [bigEndianWords, ih hrest, Option.map_none]

theorem bigEndianWords_of_even {b : List Byte} {n : Nat} (h : b.length = 2 * n) :
    bigEndianWords b = some ((List.range n).map (pairWord b)) := by
  induction n generalizing b with
  | zero => rw [List.length_eq_zero_iff.1 h]; rfl
  | succ n ih =>
    match b with
    | hi :: lo :: rest =>
      have hrest : rest.length = 2 * n := by simpa [Nat.mul_add] using h
      rw [bigEndianWords, ih hrest, List.range_succ_eq_map, List.map_cons, List.map_map]
      rfl

/-! ## One image (R182, R183) -/

/-- No other word is touched (R181). -/
theorem get_loadWords_of_ne {mem : Memory} {origin j : Nat} {ws : List Word}
    (h : ∀ i < ws.length, j ≠ origin + i) : (loadWords mem origin ws).get j = mem.get j := by
  induction ws generalizing mem origin with
  | nil => rfl
  | cons w ws ih =>
    have hj : j ≠ origin := h 0 (Nat.succ_pos _)
    have hrest : ∀ i < ws.length, j ≠ origin + 1 + i := fun i hi => by
      have := h (i + 1) (Nat.succ_lt_succ hi)
      omega
    exact (ih hrest).trans (Memory.get_set_of_ne mem w hj)

/-- Word `i` goes to `origin + i` (R182). -/
theorem get_loadWords_of_lt {mem : Memory} {origin i : Nat} {ws : List Word} (hm : mem.wf = true)
    (h : origin + ws.length ≤ 65536) (hi : i < ws.length) : (loadWords mem origin ws).get (origin + i) = ws[i] := by
  induction ws generalizing mem origin i with
  | nil => contradiction
  | cons w ws ih =>
    rw [List.length_cons] at h
    cases i with
    | zero =>
      have hlater : (loadWords (mem.set origin w) (origin + 1) ws).get origin = (mem.set origin w).get origin :=
        get_loadWords_of_ne fun i _ => by omega
      exact hlater.trans (Memory.get_set_self hm origin w)
    | succ i =>
      rw [loadWords, show origin + (i + 1) = origin + 1 + i by omega]
      exact ih (Memory.wf_set hm (by omega) w) (by omega) (Nat.lt_of_succ_lt_succ hi)

/-- An origin word and at least one program word load unless they run past 0xFFFF (R182, D18). -/
theorem loadImageWords_cons (mem : Memory) (origin : Word) {ws : List Word} (h : 1 ≤ ws.length) :
    loadImageWords mem (origin :: ws) = if origin.toNat + ws.length > 65536 then .error .pastTop
      else .ok (loadWords mem origin.toNat ws) := by
  cases ws with
  | nil => contradiction
  | cons w ws => rfl

/-- The `k` words of the program in an image of `2 + 2k` bytes (R182). -/
def programWords (b : List Byte) (k : Nat) : List Word := (List.range k).map fun i => pairWord b (i + 1)

@[simp] theorem length_programWords (b : List Byte) (k : Nat) : (programWords b k).length = k := by
  simp [programWords]

/-- An image of an even number of bytes, four or more: it loads unless it runs past 0xFFFF (R182, D18). -/
theorem loadImage_of_even {b : List Byte} {k : Nat} (mem : Memory) (hlen : b.length = 2 + 2 * k) (hk : 1 ≤ k) :
    loadImage (some b) mem = if (pairWord b 0).toNat + k > 65536 then .error .pastTop
      else .ok (loadWords mem (pairWord b 0).toNat (programWords b k)) := by
  have hwords : bigEndianWords b = some (pairWord b 0 :: programWords b k) := by
    rw [bigEndianWords_of_even (n := k + 1) (by omega), List.range_succ_eq_map, List.map_cons, List.map_map]
    rfl
  have hprogram : 1 ≤ (programWords b k).length := by rwa [length_programWords]
  rw [loadImage, hwords]
  exact (loadImageWords_cons mem _ hprogram).trans (by rw [length_programWords])

theorem loadImage_of_odd {b : List Byte} (mem : Memory) (h : b.length % 2 = 1) :
    loadImage (some b) mem = .error .truncatedMidWord := by
  rw [loadImage, bigEndianWords_of_odd h]

/-- No origin word, or no word after it (R183). -/
theorem loadImage_of_short {b : List Byte} {n : Nat} (mem : Memory) (hlen : b.length = 2 * n) (hn : n < 2) :
    loadImage (some b) mem = .error .noProgramWord := by
  rw [loadImage, bigEndianWords_of_even hlen]
  obtain rfl | rfl : n = 0 ∨ n = 1 := by omega
  · rfl
  · rfl

/-- Settles O16: the image loads (`loadImage_of_even`), and `loadWords` writes its words and no other. -/
theorem imageWordsAreLoadedAtTheOrigin : Obligations.ImageWordsAreLoadedAtTheOrigin := by
  intro mem b k hm hlen hk htop
  rw [← toNat_pairWord_zero] at htop ⊢
  refine ⟨_, (loadImage_of_even mem hlen hk).trans (if_neg (Nat.not_lt.2 htop)), fun i hi => ?_, fun j hj => ?_⟩
  · rw [get_loadWords_of_lt hm (by simpa using htop) (by simpa using hi), ← toNat_pairWord_succ]
    simp [programWords]
  · exact get_loadWords_of_ne (by simpa using hj)

/-- When an image fails to load (R183, D18), whatever is in memory. -/
theorem loadImage_error_iff (image : Option (List Byte)) (mem : Memory) :
    (∃ e, loadImage image mem = .error e) ↔
      image = none ∨ ∃ b, image = some b ∧ (b.length % 2 = 1 ∨ b.length < 4 ∨
        (b.getD 0 0#8).toNat * 256 + (b.getD 1 0#8).toNat + (b.length / 2 - 1) > 65536) := by
  cases image with
  | none => simp [loadImage]
  | some b =>
    by_cases hodd : b.length % 2 = 1
    · simp [loadImage_of_odd mem hodd, hodd]
    by_cases hshort : b.length < 4
    · have hlen : b.length = 2 * (b.length / 2) := by omega
      simp [loadImage_of_short mem hlen (by omega), hshort]
    rw [loadImage_of_even (k := b.length / 2 - 1) mem (by omega) (by omega), toNat_pairWord_zero]
    split <;> next htop => simpa [hodd, hshort] using htop

theorem loadImage_ok_iff (image : Option (List Byte)) (mem : Memory) :
    (∃ m, loadImage image mem = .ok m) ↔ ¬ ∃ e, loadImage image mem = .error e := by
  cases loadImage image mem <;> simp

/-- Whether an image loads does not depend on the memory it is loaded over (R183). -/
theorem loadImage_ok_mem_irrel (image : Option (List Byte)) (mem mem' : Memory) :
    (∃ m, loadImage image mem = .ok m) ↔ ∃ m, loadImage image mem' = .ok m := by
  rw [loadImage_ok_iff, loadImage_ok_iff, loadImage_error_iff, loadImage_error_iff]

/-! ## The images in order (R181) and the start of execution (R184) -/

theorem loadImages_cons (image : Option (List Byte)) (images : List (Option (List Byte))) (mem : Memory) :
    loadImages (image :: images) mem = (loadImage image mem).bind (loadImages images) := by
  rw [loadImages]
  cases loadImage image mem <;> rfl

theorem loadImages_concat (images : List (Option (List Byte))) (image : Option (List Byte)) (mem : Memory) :
    loadImages (images ++ [image]) mem = (loadImages images mem).bind (loadImage image) := by
  induction images generalizing mem with
  | nil =>
    rw [List.nil_append, loadImages_cons]
    change _ = loadImage image mem
    cases loadImage image mem <;> rfl
  | cons first images ih =>
    rw [List.cons_append, loadImages_cons, loadImages_cons]
    cases loadImage first mem with
    | error e => rfl
    | ok mem' => exact ih mem'

/-- The images load exactly when each of them does (R183). -/
theorem loadImages_ok_iff (images : List (Option (List Byte))) (mem : Memory) :
    (∃ m, loadImages images mem = .ok m) ↔ ∀ image ∈ images, ∃ m, loadImage image [] = .ok m := by
  induction images generalizing mem with
  | nil => simp [loadImages]
  | cons image images ih =>
    rw [loadImages_cons, List.forall_mem_cons, loadImage_ok_mem_irrel image [] mem]
    cases loadImage image mem with
    | error e => simp [Except.bind]
    | ok mem' => simpa [Except.bind] using ih mem'

/-- Boot is loading: the machine that starts is the reset machine with the images in its memory (R180, R181, R184). -/
theorem boot_eq (images : List (Option (List Byte))) :
    boot images = (loadImages images []).map State.reset.setMem := by
  unfold boot PreStart.load
  change _ = (loadImages images PreStart.cleared.mem).map _
  cases loadImages images PreStart.cleared.mem <;> rfl

/-- Settles O17: one image by the parity and the number of its bytes, a list of images by induction. -/
theorem loadFailuresAreExactlyThese : Obligations.LoadFailuresAreExactlyThese := by
  refine ⟨loadImage_error_iff, fun images => ?_⟩
  rw [← loadImages_ok_iff images [], boot_eq]
  cases loadImages images [] <;> simp [Except.map]

/-- Settles O18: the last image is loaded over the memory the others left (`loadImages_concat`). -/
theorem aLaterImageIsLoadedOverTheEarlier : Obligations.ALaterImageIsLoadedOverTheEarlier := by
  intro images image s hboot
  obtain ⟨mem, hmem, rfl⟩ := boot_ok hboot
  have hconcat : boot (images ++ [image]) = (loadImage image mem).map State.reset.setMem := by
    rw [boot_eq, loadImages_concat, hmem]
    rfl
  rw [hconcat, State.setMem_mem]
  exact ⟨fun m hm => by rw [hm]; rfl, fun e he => by rw [he]; rfl⟩

@[simp] theorem State.reset_reg (r : RegIx) : State.reset.reg r = 0#16 := by
  simp [State.reset, State.reg]

/-- Settles O14: the reset state lists no memory, so every word reads zero, and its registers are zero
(`State.reset_reg`). -/
theorem resetIsTheStartOfExecution : Obligations.ResetIsTheStartOfExecution :=
  ⟨State.reset_reg, fun _ => rfl, rfl, rfl, rfl⟩

/-- Settles O12: the reset machine is the boot of no image (R181). -/
theorem resetMeetsTheInvariant : Obligations.ResetMeetsTheInvariant :=
  Inv.boot (images := []) rfl

/-- Settles O15: loading changes only the memory of the reset machine, and 0x3000 is not KBSR, so the fetch from it does
not poll. -/
theorem executionStartsAt3000WithZ : Obligations.ExecutionStartsAt3000WithZ := by
  intro images s hboot
  obtain ⟨mem, -, rfl⟩ := boot_ok hboot
  have hpc : (State.reset.setMem mem).pc ≠ (State.reset.setMem mem).params.kbsrAddr :=
    show startAddr ≠ defaultKbsrAddr by decide
  refine ⟨rfl, rfl, rfl, State.reset_reg, ?_⟩
  rw [fetch_fst, afterRead_of_ne hpc]
  rfl

end Sys2Proof.Machine
end
